-- ==== Sys2Proof/Word.lean ====
section
/-! DEFINITION. The word types of the LS-8 core: bytes, the 9-bit program counter and the 9-bit
information word of a stop (`10_state.md` R10). All quantities are unsigned (`00_scope.md` R6). -/

namespace Sys2Proof

/-- A register, a memory cell, an operand byte, `FL`: 8 bits, unsigned (R6, R11, R12). -/
abbrev Byte := BitVec 8

/-- `PC`, `CAUSE_PC`: 9 bits, so that 256 can be held (R15, D2). -/
abbrev Pc := BitVec 9

/-- `CAUSE_INFO`: 9 bits (R10, R21). -/
abbrev Info := BitVec 9

/-- `zext_9` of `00_scope.md` section 5, the only extension this machine has. -/
abbrev zext9 (v : Byte) : BitVec 9 := v.setWidth 9

end Sys2Proof
end

