-- ==== Sys2Proof/Config.lean ====
section
/-! DEFINITION. The parameters of the machine (`00_scope.md` R5): fixed sizes, reset values, and
the shape of the one open parameter of the core, `OPCODE_MAP`. The machine has no free value: the
spec leaves no result of a running instruction open. -/

namespace Sys2Proof

/-- The 22 instructions by name (`30_encoding.md` R56), in the order of the spec's table. -/
inductive Mnemonic where
  | hlt | ldi | prn
  | add | sub | mul | div | mod | and | or | xor | not | shl | shr
  | push | pop
  | call | ret | cmp | jmp | jeq | jne
  deriving DecidableEq, Repr

/-- Every mnemonic, once. -/
def Mnemonic.all : List Mnemonic :=
  [.hlt, .ldi, .prn, .add, .sub, .mul, .div, .mod, .and, .or, .xor, .not, .shl, .shr,
   .push, .pop, .call, .ret, .cmp, .jmp, .jeq, .jne]

/-- `OPCODE_MAP`: the opcode byte of each mnemonic. Configuration, fixed when the machine is built,
not state (R5, R25). Which maps are admissible is `OpcodeMap.Admissible` (R58), the default map is
`defaultOpcodeMap` (R56), both in Decode.lean. -/
abbrev OpcodeMap := Mnemonic → Byte

namespace Config

/-- `MEM_SIZE` (R5, R11). -/
abbrev memSize : Nat := 256

/-- `MAX_OPERANDS` (R5, R50). -/
abbrev maxOperands : Nat := 2

/-- `SP_INDEX` (R5, R14). -/
abbrev spIndex : Fin 8 := 7

/-- `SP_RESET` (R5, R14). -/
abbrev spReset : Byte := 0xF4#8

/-- `GPR_RESET` of `R[0]`..`R[6]` (R5, decision D5). -/
abbrev gprReset : Byte := 0x00#8

/-- `PC_RESET` (R5, decision D3). -/
abbrev pcReset : Pc := 0#9

/-- `FL_RESET` (R5, decision D4). -/
abbrev flReset : Byte := 0x00#8

/-- What a memory cell that nothing has written reads as: memory is "zero-initialized at machine
creation" (R11). -/
abbrev unwrittenCell : Byte := 0x00#8

/-- `OUT_SEPARATOR`: what the host's rendering puts after each printed numeral; a parameter of the
host, not of the core (R5, decision D12). -/
abbrev outSeparator : String := "\n"

end Config

end Sys2Proof
end

