-- ==== Sys2Proof/Syntax.lean ====
section
/-! DEFINITION. The instructions as syntax: one constructor per row of `opcode_table.json`. An
operand is the whole operand byte of the instruction (`30_encoding.md` R53, R54): whether a register
operand names a register is checked by the instruction itself (R154), not by the decoder. -/

namespace Sys2Proof

/-- The 22 instructions with their operand bytes: `a` is byte 1, `b` (or `imm`) byte 2 (R52). -/
inductive Instr where
  /-- R90, format `Z` -/
  | hlt
  /-- R91, format `RI` -/
  | ldi (a imm : Byte)
  /-- R92, format `R` -/
  | prn (a : Byte)
  /-- R103, format `RR` -/
  | add (a b : Byte)
  /-- R104, format `RR` -/
  | sub (a b : Byte)
  /-- R105, format `RR` -/
  | mul (a b : Byte)
  /-- R106, format `RR` -/
  | div (a b : Byte)
  /-- R107, format `RR` -/
  | mod (a b : Byte)
  /-- R108, format `RR` -/
  | and (a b : Byte)
  /-- R109, format `RR` -/
  | or (a b : Byte)
  /-- R110, format `RR` -/
  | xor (a b : Byte)
  /-- R111, format `R` -/
  | not (a : Byte)
  /-- R112, format `RR` -/
  | shl (a b : Byte)
  /-- R113, format `RR` -/
  | shr (a b : Byte)
  /-- R121, format `R` -/
  | push (a : Byte)
  /-- R122, format `R` -/
  | pop (a : Byte)
  /-- R131, format `R` -/
  | call (a : Byte)
  /-- R132, format `Z` -/
  | ret
  /-- R134, format `RR` -/
  | cmp (a b : Byte)
  /-- R135, format `R` -/
  | jmp (a : Byte)
  /-- R136, format `R` -/
  | jeq (a : Byte)
  /-- R137, format `R` -/
  | jne (a : Byte)
  deriving DecidableEq, Repr

/-- The mnemonic of an instruction. -/
def Instr.mnemonic : Instr → Mnemonic
  | .hlt => .hlt
  | .ldi _ _ => .ldi
  | .prn _ => .prn
  | .add _ _ => .add
  | .sub _ _ => .sub
  | .mul _ _ => .mul
  | .div _ _ => .div
  | .mod _ _ => .mod
  | .and _ _ => .and
  | .or _ _ => .or
  | .xor _ _ => .xor
  | .not _ => .not
  | .shl _ _ => .shl
  | .shr _ _ => .shr
  | .push _ => .push
  | .pop _ => .pop
  | .call _ => .call
  | .ret => .ret
  | .cmp _ _ => .cmp
  | .jmp _ => .jmp
  | .jeq _ => .jeq
  | .jne _ => .jne

/-- The register-operand bytes, in the order the instruction checks them: `a`, then `b` (R154). The
second operand of LDI is a value and no register operand. -/
def Instr.registerOperands : Instr → List Byte
  | .hlt => []
  | .ldi a _ => [a]
  | .prn a => [a]
  | .add a b => [a, b]
  | .sub a b => [a, b]
  | .mul a b => [a, b]
  | .div a b => [a, b]
  | .mod a b => [a, b]
  | .and a b => [a, b]
  | .or a b => [a, b]
  | .xor a b => [a, b]
  | .not a => [a]
  | .shl a b => [a, b]
  | .shr a b => [a, b]
  | .push a => [a]
  | .pop a => [a]
  | .call a => [a]
  | .ret => []
  | .cmp a b => [a, b]
  | .jmp a => [a]
  | .jeq a => [a]
  | .jne a => [a]

end Sys2Proof
end

