-- ==== Sys2Proof/WellFormed.lean ====
section
/-! DEFINITION. Well-formed instructions: every register operand names one of the eight registers
(`30_encoding.md` R52, R53). An instruction that is not well-formed still decodes; executing it
raises OutOfRangeRegister (`60_exceptions.md` R154). -/

namespace Sys2Proof

/-- A register operand byte names a register: bits 7:3 are 0 (R52, R53). -/
def namesRegister (b : Byte) : Bool := decide (b.toNat < 8)

/-- Every register operand of the instruction names a register. -/
def WellFormed (i : Instr) : Bool := i.registerOperands.all namesRegister

end Sys2Proof
end

