-- ==== Sys2Proof/Decode.lean ====
section
/-! DEFINITION. The opcode map, the decoder, the encoder and the assembly notation (`30_encoding.md`
R50 to R61). Decoder and encoder take the opcode map as an argument (R5, R58, decision D1); the names
without `With` use the default map of R56. -/

namespace Sys2Proof

/-- `n`, the operand count of each mnemonic (R52, R56). -/
def Mnemonic.operandCount : Mnemonic → Nat
  | .hlt | .ret => 0
  | .prn | .not | .push | .pop | .call | .jmp | .jeq | .jne => 1
  | .ldi | .add | .sub | .mul | .div | .mod | .and | .or | .xor | .shl | .shr | .cmp => 2

/-- `c`, the PC-control bit of each mnemonic: the instruction writes `PC` itself (R51, R56, R58). -/
def Mnemonic.controlsPc : Mnemonic → Bool
  | .call | .ret | .jmp | .jeq | .jne => true
  | .hlt | .ldi | .prn | .add | .sub | .mul | .div | .mod | .and | .or | .xor | .not | .shl | .shr
  | .push | .pop | .cmp => false

/-- Bits 7:6 of an opcode byte, the operand count field (R51). -/
def opcodeCount (b : Byte) : Nat := (b >>> 6).toNat

/-- Bit 4 of an opcode byte, the PC-control bit (R51). -/
def opcodeControl (b : Byte) : Bool := b.getLsbD 4

/-- The four constraints every admissible `OPCODE_MAP` meets (R58). -/
def OpcodeMap.Admissible (m : OpcodeMap) : Prop :=
  (∀ o o', m o = m o' → o = o') ∧
  (∀ o, opcodeCount (m o) = o.operandCount) ∧
  (∀ o, opcodeControl (m o) = o.controlsPc) ∧
  (∀ o, m o ≠ 0xFF#8)

/-- The default `OPCODE_MAP` (R56). UNVERIFIED (log entry 1): the spec marks these byte values as
general knowledge, not in its source (D1). -/
def defaultOpcodeMap : OpcodeMap
  | .hlt => 0b00000001#8
  | .ldi => 0b10000010#8
  | .prn => 0b01000111#8
  | .add => 0b10100000#8
  | .sub => 0b10100001#8
  | .mul => 0b10100010#8
  | .div => 0b10100011#8
  | .mod => 0b10100100#8
  | .and => 0b10101000#8
  | .or => 0b10101010#8
  | .xor => 0b10101011#8
  | .not => 0b01101001#8
  | .shl => 0b10101100#8
  | .shr => 0b10101101#8
  | .push => 0b01000101#8
  | .pop => 0b01000110#8
  | .call => 0b01010000#8
  | .ret => 0b00010001#8
  | .cmp => 0b10100111#8
  | .jmp => 0b01010100#8
  | .jeq => 0b01010101#8
  | .jne => 0b01010110#8

/-- The dispatch entry of an opcode byte, looked up as a whole byte (R51, R55). -/
def lookupOpcode (m : OpcodeMap) (b : Byte) : Option Mnemonic :=
  Mnemonic.all.find? fun o => m o == b

/-- The instruction of a mnemonic and its operand bytes; a format takes the bytes it has (R52). -/
def instrOf (o : Mnemonic) (a b : Byte) : Instr :=
  match o with
  | .hlt => .hlt
  | .ldi => .ldi a b
  | .prn => .prn a
  | .add => .add a b
  | .sub => .sub a b
  | .mul => .mul a b
  | .div => .div a b
  | .mod => .mod a b
  | .and => .and a b
  | .or => .or a b
  | .xor => .xor a b
  | .not => .not a
  | .shl => .shl a b
  | .shr => .shr a b
  | .push => .push a
  | .pop => .pop a
  | .call => .call a
  | .ret => .ret
  | .cmp => .cmp a b
  | .jmp => .jmp a
  | .jeq => .jeq a
  | .jne => .jne a

/-- Why bytes are no instruction. -/
inductive DecodeError where
  /-- There is no opcode byte. -/
  | noOpcode
  /-- The opcode byte has no dispatch entry (R57). -/
  | unrecognizedOpcode (opcode : Byte)
  /-- The opcode is recognised and operand byte `k` (1 or 2) is not there. -/
  | missingOperand (k : Nat)
  deriving DecidableEq, Repr

/-- Read the operand bytes of a recognised opcode, in address order (R55, R75). -/
def decodeOperands (o : Mnemonic) (bytes : List Byte) : Except DecodeError (Instr × List Byte) :=
  match o.operandCount, bytes with
  | 0, rest => .ok (instrOf o 0 0, rest)
  | 1, a :: rest => .ok (instrOf o a 0, rest)
  | 1, [] => .error (.missingOperand 1)
  | _, a :: b :: rest => .ok (instrOf o a b, rest)
  | _, [_] => .error (.missingOperand 2)
  | _, [] => .error (.missingOperand 1)

/-- Decode the instruction at the head of `bytes` under the opcode map `m`, and return the bytes
that follow it: opcode lookup first, then the operands (R55). Total: every list of bytes is an
instruction or is rejected by name. -/
def decodeWith (m : OpcodeMap) (bytes : List Byte) : Except DecodeError (Instr × List Byte) :=
  match bytes with
  | [] => .error .noOpcode
  | ir :: rest =>
    match lookupOpcode m ir with
    | none => .error (.unrecognizedOpcode ir)
    | some o => decodeOperands o rest

/-- Decode under the default opcode map. -/
def decode (bytes : List Byte) : Except DecodeError (Instr × List Byte) :=
  decodeWith defaultOpcodeMap bytes

/-- The operand bytes of an instruction, first operand first (R34, R52). -/
def Instr.operandBytes : Instr → List Byte
  | .hlt => []
  | .ldi a imm => [a, imm]
  | .prn a => [a]
  | .add a b => [a, b]
  | .sub a b => [a, b]
  | .mul a b => [a, b]
  | .div a b => [a, b]
  | .mod a b => [a, b]
  | .and a b => [a, b]
  | .or a b => [a, b]
  | .xor a b => [a, b]
  | .not a => [a]
  | .shl a b => [a, b]
  | .shr a b => [a, b]
  | .push a => [a]
  | .pop a => [a]
  | .call a => [a]
  | .ret => []
  | .cmp a b => [a, b]
  | .jmp a => [a]
  | .jeq a => [a]
  | .jne a => [a]

/-- The bytes of an instruction under the opcode map `m`: the opcode at the lowest address, then
the operands (R34, R50, R52). -/
def encodeWith (m : OpcodeMap) (i : Instr) : List Byte := m i.mnemonic :: i.operandBytes

/-- Encode under the default opcode map. -/
def encode (i : Instr) : List Byte := encodeWith defaultOpcodeMap i

/-- The bytes of an instruction whose bits are `w`, numbered as `opcode_table.json` numbers them
(bit 0 is the least significant bit of the first byte, which lies at the lowest address), laid out
to the longest instruction; every bit from `nbits` on is 0. -/
def tableBytes (nbits w : Nat) : List Byte :=
  (List.range (1 + Config.maxOperands)).map fun k => BitVec.ofNat 8 ((w % 2 ^ nbits) >>> (8 * k))

/-- What the decoder reads from an instruction whose bits are `w`. -/
def decodeTableWord (nbits w : Nat) : Option Instr :=
  match decode (tableBytes nbits w) with
  | .ok (i, _) => some i
  | .error _ => none

/-! ## The assembly notation (`30_encoding.md` R60) -/

/-- The mnemonic in capitals (R56, R60). -/
def Mnemonic.text : Mnemonic → String
  | .hlt => "HLT"
  | .ldi => "LDI"
  | .prn => "PRN"
  | .add => "ADD"
  | .sub => "SUB"
  | .mul => "MUL"
  | .div => "DIV"
  | .mod => "MOD"
  | .and => "AND"
  | .or => "OR"
  | .xor => "XOR"
  | .not => "NOT"
  | .shl => "SHL"
  | .shr => "SHR"
  | .push => "PUSH"
  | .pop => "POP"
  | .call => "CALL"
  | .ret => "RET"
  | .cmp => "CMP"
  | .jmp => "JMP"
  | .jeq => "JEQ"
  | .jne => "JNE"

/-- The operands as written: a register operand as `R0` to `R7`, an immediate as a decimal numeral
(R60). A register byte above 7, which names no register, is written in the same way. -/
def Instr.operandTexts (i : Instr) : List String :=
  (i.registerOperands.map fun a => "R" ++ toString a.toNat) ++
    (i.operandBytes.drop i.registerOperands.length).map fun v => toString v.toNat

/-- An instruction as written: the mnemonic, then the operands separated by a comma (R60). -/
def Instr.text (i : Instr) : String :=
  match i.operandTexts with
  | [] => i.mnemonic.text
  | operands => i.mnemonic.text ++ " " ++ ",".intercalate operands

/-- The instructions of a sequence as written, separated by `;` (R60). -/
def sequenceText (is : List Instr) : String := "; ".intercalate (is.map Instr.text)

end Sys2Proof
end

