-- ==== Sys2Proof/Machine/State.lean ====
section
/-! DEFINITION. The state of the LS-8 core (`10_state.md` R10 to R26), plain data: the complete
architectural state and, beside it, the output trace (log entry 6). -/

namespace Sys2Proof.Machine

/-- The run state (R19). -/
inductive RunState where
  | ready | running | halted | faulted
  deriving DecidableEq, Repr

/-- The 2-bit code of the run state on a status port (R19, decision D13). -/
def RunState.code : RunState → BitVec 2
  | .ready => 0
  | .running => 1
  | .halted => 2
  | .faulted => 3

/-- Why the run stopped (R21, R150). -/
inductive Cause where
  /-- not stopped -/
  | none
  /-- HLT (R90) -/
  | haltInstruction
  /-- DIV or MOD with a zero divisor, a halt (R102) -/
  | divideByZero
  /-- a fetched opcode byte without a dispatch entry (R151) -/
  | unrecognizedOpcode
  /-- a fetch address or a return address above 255 (R152) -/
  | outOfRangeAddress
  /-- a register operand byte above 7 (R154) -/
  | outOfRangeRegister
  deriving DecidableEq, Repr

/-- The 3-bit code in `CAUSE` (R21, decision D13). -/
def Cause.code : Cause → BitVec 3
  | .none => 0
  | .haltInstruction => 1
  | .divideByZero => 2
  | .unrecognizedOpcode => 3
  | .outOfRangeAddress => 4
  | .outOfRangeRegister => 5

/-- An event handed to the host's output sink (R24). -/
inductive OutEvent where
  /-- `Out(v)`, produced by PRN -/
  | out (v : Byte)
  /-- `Diag(c, pc, info)`, produced by the step that stops the run with a cause 2..5 -/
  | diag (c : Cause) (pc : Pc) (info : Info)
  deriving DecidableEq, Repr

/-- `MEM` as the cells that differ from what an unwritten cell reads as (R11): see `Memory.wf`. -/
abbrev Memory := List Host.Cell

/-- The canonical form of memory: addresses strictly rising and inside 0..255, no entry equal to
what an unlisted cell reads as. -/
abbrev Memory.wf (m : Memory) : Prop :=
  m.Pairwise (fun c d => c.1 < d.1) ∧
    ∀ c ∈ m, c.1 < Config.memSize ∧ c.2 ≠ Config.unwrittenCell

/-- The state of the machine (R10) and its output trace (R24). -/
structure State where
  /-- `MEM` (R11), in canonical form -/
  mem : Memory
  /-- `R[0]`..`R[7]`; `R[7]` is `SP` (R12, R14) -/
  regs : Vector Byte 8
  /-- `PC` (R15) -/
  pc : Pc
  /-- `FL`: bit 0 `E`, bit 1 `G`, bit 2 `L` (R17) -/
  fl : Byte
  /-- `RUN` (R19) -/
  run : RunState
  /-- `CAUSE` (R21) -/
  cause : Cause
  /-- `CAUSE_PC` (R21) -/
  causePc : Pc
  /-- `CAUSE_INFO` (R21) -/
  causeInfo : Info
  /-- the output trace, oldest event first (R24) -/
  out : List OutEvent
  deriving DecidableEq, Repr

/-- The state after reset (R26, R180). Memory and `SP` and `RUN` are DOC0's; the other values are
the spec's decisions D3, D4, D5, D13 (log entry 3). -/
def State.reset : State where
  mem := []
  regs := (Vector.replicate 8 Config.gprReset).set Config.spIndex Config.spReset
  pc := Config.pcReset
  fl := Config.flReset
  run := .ready
  cause := .none
  causePc := 0
  causeInfo := 0
  out := []

/-- The reasons for a stop that is no state of the machine. There are none: the spec describes the
entry of every fault and every halt (R157, R158), so each is a next state whose `RUN` is `Faulted`
or `Halted`. The type is empty, so no definition of the model can answer with it. Safe: nothing is
stopped that the machine runs. -/
inductive Fault
  deriving DecidableEq, Repr

/-- The reasons for refusing to give an answer. -/
inductive Refusal where
  /-- An instruction without a meaning in the model; only `exec`'s arms may raise it, and no arm
  does. Safe. -/
  | notModelled (mnemonic : String)
  /-- A `load` of more than 256 bytes: the loader rejects it before the core starts, so for the core
  such a launch does not exist (R43, R186, U13). Raised by the host event `load` only, never by a
  step. Safe. -/
  | programTooLong (length : Nat)
  deriving DecidableEq, Repr

/-- The answer of a meaning, of a step and of a host event. -/
abbrev Result := Host.Outcome State Fault Refusal

end Sys2Proof.Machine
end

