-- ==== Sys2Proof/Machine/Ops.lean ====
section
/-! DEFINITION. The named operations over memory, registers, the program counter and the output
trace, and the two ways a step ends a run: taking a fault (R157) and halting (R158). There is no
return from either (R159), so no operation for one. -/

namespace Sys2Proof.Machine

/-! ## Memory (`20_memory.md` R31, R32) -/

/-- `MemRead(addr, 1)` (R31). -/
def Memory.read (m : Memory) (addr : Nat) : Byte :=
  match m with
  | [] => Config.unwrittenCell
  | (b, w) :: rest => if addr = b then w else Memory.read rest addr

/-- Forget what is listed for `addr`. -/
def Memory.erase (m : Memory) (addr : Nat) : Memory := m.filter fun c => c.1 != addr

/-- List `v` at `addr`, before the first higher address. -/
def Memory.insert (m : Memory) (addr : Nat) (v : Byte) : Memory :=
  match m with
  | [] => [(addr, v)]
  | (b, w) :: rest =>
    if addr < b then (addr, v) :: (b, w) :: rest else (b, w) :: Memory.insert rest addr v

/-- `MemWrite(addr, 1, v)` (R32), keeping the canonical form. -/
def Memory.write (m : Memory) (addr : Nat) (v : Byte) : Memory :=
  if v = Config.unwrittenCell then Memory.erase m addr
  else Memory.insert (Memory.erase m addr) addr v

/-- Write `bytes` at ascending addresses from `addr` on (R43). -/
def Memory.writeBytes (m : Memory) (addr : Nat) (bytes : List Byte) : Memory :=
  match bytes with
  | [] => m
  | v :: rest => Memory.writeBytes (Memory.write m addr v) (addr + 1) rest

/-- `MEM[addr]`. -/
def State.byteAt (s : State) (addr : Nat) : Byte := Memory.read s.mem addr

/-- `MEM[addr] <- v`. -/
def State.setByte (s : State) (addr : Nat) (v : Byte) : State :=
  { s with mem := Memory.write s.mem addr v }

/-! ## Registers (`10_state.md` R12 to R14) -/

/-- `R[r]`. -/
def State.reg (s : State) (r : Fin 8) : Byte := s.regs[r]

/-- `R[r] <- v`. No register is hardwired or read-only (R12). -/
def State.setReg (s : State) (r : Fin 8) (v : Byte) : State :=
  { s with regs := s.regs.set r v }

/-- `SP`, another spelling of `R[7]` (R14). -/
def State.sp (s : State) : Byte := s.reg Config.spIndex

/-- `SP <- v`. -/
def State.setSp (s : State) (v : Byte) : State := s.setReg Config.spIndex v

/-! ## Flags, program counter, output trace -/

/-- `FL <- v`. -/
def State.setFl (s : State) (v : Byte) : State := { s with fl := v }

/-- `PC <- target`. -/
def State.setPc (s : State) (target : Pc) : State := { s with pc := target }

/-- The address of the byte after an instruction with `n` operand bytes, `pc0 + n + 1` (R76): a
9-bit sum, not reduced modulo 256. -/
def State.nextPc (s : State) (n : Nat) : Pc := s.pc + BitVec.ofNat 9 (n + 1)

/-- The loop's advance for an instruction with `n` operand bytes (R76). -/
def State.advance (s : State) (n : Nat) : State := s.setPc (s.nextPc n)

/-- Append one event to the output trace (R24). -/
def State.emit (s : State) (e : OutEvent) : State := { s with out := s.out ++ [e] }

/-! ## The end of a run (`60_exceptions.md` R157, R158) -/

/-- Record why and where the run stops (R21). -/
def State.record (s : State) (c : Cause) (info : Info) : State :=
  { s with cause := c, causePc := s.pc, causeInfo := info }

/-- `raise <Cause>(info)`, fault entry (R157): `CAUSE`, `CAUSE_PC`, `CAUSE_INFO`, one `Diag`, and
`RUN <- Faulted`; `PC` keeps `pc0` and nothing else changes. `s` is the state before the
instruction: every check that raises stands before its first write. -/
def takeFault (c : Cause) (info : Info) (s : State) : State :=
  { (s.record c info).emit (.diag c s.pc info) with run := .faulted }

/-- `raise` as the answer of a step. -/
def raise (c : Cause) (info : Info) (s : State) : Result := .next (takeFault c info s)

/-- `halt <Cause>`, halt entry (R158), of an instruction with `n` operand bytes: the causes are
recorded, the loop advances `PC`, and `RUN` becomes `Halted` (R77). -/
def takeHalt (c : Cause) (info : Info) (n : Nat) (s : State) : State :=
  { (s.record c info).advance n with run := .halted }

/-- The zero-divisor halt of DIV and MOD (R102): the halt entry with its `Diag`. `b` is the operand
byte that names the divisor register. -/
def takeZeroDivisorHalt (b : Byte) (n : Nat) (s : State) : State :=
  takeHalt .divideByZero (zext9 b) n (s.emit (.diag .divideByZero s.pc (zext9 b)))

end Sys2Proof.Machine
end

