-- ==== Sys2Proof/Machine/Operands.lean ====
section
/-! DEFINITION. The operand forms: the register operand, the immediate operand (`30_encoding.md` R53,
R54) and the stack, the only data addresses of the machine (`43_stack.md` R120). -/

namespace Sys2Proof.Machine

/-- A register operand is the whole operand byte as an unsigned index; above 7 it names no register
and is not reduced (R53). -/
def regOperand (b : Byte) : Option (Fin 8) :=
  if h : b.toNat < 8 then some ⟨b.toNat, h⟩ else none

/-- Check a register operand and go on with the register it names, or raise OutOfRangeRegister with
the byte (R154). -/
def withReg (b : Byte) (s : State) (go : Fin 8 → Result) : Result :=
  match regOperand b with
  | some r => go r
  | none => raise .outOfRangeRegister (zext9 b) s

/-- Two register operands, `a` checked before `b` (R100, R154). -/
def withRegs (a b : Byte) (s : State) (go : Fin 8 → Fin 8 → Result) : Result :=
  withReg a s fun ra => withReg b s fun rb => go ra rb

/-- The immediate operand is the whole operand byte as it stands (R54). -/
def immediate (b : Byte) : Byte := b

/-- `(SP - 1) mod 256`: the effective address of a push, and `SP` after it (R120). -/
def pushSp (s : State) : Byte := s.sp - 1

/-- The address a push (PUSH, CALL) stores to (R120). -/
def pushAddr (s : State) : Nat := (pushSp s).toNat

/-- The address a pop (POP, RET) reads (R120). -/
def popAddr (s : State) : Nat := s.sp.toNat

/-- A push: `SP` is decremented, then the value is taken from the state with the new `SP` and stored
at the new `SP` (R120, R121, R131, decision D17). -/
def State.push (s : State) (value : State → Byte) : State :=
  let t := s.setSp (pushSp s)
  t.setByte (pushAddr s) (value t)

/-- The byte a pop reads (R120). -/
def State.top (s : State) : Byte := s.byteAt (popAddr s)

/-- `SP <- (SP + 1) mod 256` (R120). -/
def State.incSp (s : State) : State := s.setSp (s.sp + 1)

end Sys2Proof.Machine
end

