-- ==== Sys2Proof/Machine/Alu.lean ====
section
/-! DEFINITION. The ALU and its eleven instructions (`42_alu.md` R100 to R116). -/

namespace Sys2Proof.Machine

/-- The operations of the ALU: a closed type, so that an unsupported operation cannot be written
(R116, decision D22). -/
inductive AluOp where
  | add | sub | mul | div | mod | and | or | xor | not | shl | shr
  deriving DecidableEq, Repr

/-- `f_OP(x, y)` in the mathematical integers (R101). NOT does not use `y`; DIV and MOD are asked
only with `y > 0`. -/
def aluExact (op : AluOp) (x y : Nat) : Int :=
  match op with
  | .add => (x : Int) + y
  | .sub => (x : Int) - y
  | .mul => (x : Int) * y
  | .div => ((x / y : Nat) : Int)
  | .mod => ((x % y : Nat) : Int)
  | .and => ((x &&& y : Nat) : Int)
  | .or => ((x ||| y : Nat) : Int)
  | .xor => ((x ^^^ y : Nat) : Int)
  | .not => 255 - (x : Int)
  | .shl => ((x * 2 ^ y : Nat) : Int)
  | .shr => ((x / 2 ^ y : Nat) : Int)

/-- The result the ALU writes: the exact result modulo 256 (R13, R101). -/
def alu (op : AluOp) (x y : Byte) : Byte := BitVec.ofInt 8 (aluExact op x.toNat y.toNat)

/-- The frame of a two-operand ALU instruction (R100): both registers are read before the write. -/
def aluTwo (op : AluOp) (a b : Byte) (s : State) : Result :=
  withRegs a b s fun ra rb => .next ((s.setReg ra (alu op (s.reg ra) (s.reg rb))).advance 2)

/-- The same frame for DIV and MOD: a zero divisor halts and the destination is not written (R100,
R102). -/
def aluDivide (op : AluOp) (a b : Byte) (s : State) : Result :=
  withRegs a b s fun ra rb =>
    if s.reg rb = 0x00#8 then .next (takeZeroDivisorHalt b 2 s)
    else .next ((s.setReg ra (alu op (s.reg ra) (s.reg rb))).advance 2)

/-- ADD (R103). -/
def execAdd (a b : Byte) (s : State) : Result := aluTwo .add a b s

/-- SUB (R104). -/
def execSub (a b : Byte) (s : State) : Result := aluTwo .sub a b s

/-- MUL (R105). -/
def execMul (a b : Byte) (s : State) : Result := aluTwo .mul a b s

/-- DIV (R106). -/
def execDiv (a b : Byte) (s : State) : Result := aluDivide .div a b s

/-- MOD (R107). -/
def execMod (a b : Byte) (s : State) : Result := aluDivide .mod a b s

/-- AND (R108). -/
def execAnd (a b : Byte) (s : State) : Result := aluTwo .and a b s

/-- OR (R109). -/
def execOr (a b : Byte) (s : State) : Result := aluTwo .or a b s

/-- XOR (R110). -/
def execXor (a b : Byte) (s : State) : Result := aluTwo .xor a b s

/-- NOT (R111): one operand, source and destination. -/
def execNot (a : Byte) (s : State) : Result :=
  withReg a s fun ra => .next ((s.setReg ra (alu .not (s.reg ra) 0)).advance 1)

/-- SHL (R112): the amount is the full value of `R[b]`. -/
def execShl (a b : Byte) (s : State) : Result := aluTwo .shl a b s

/-- SHR (R113): logical, the amount is the full value of `R[b]`. -/
def execShr (a b : Byte) (s : State) : Result := aluTwo .shr a b s

end Sys2Proof.Machine
end

