-- ==== Sys2Proof/Machine/Flags.lean ====
section
/-! DEFINITION. The flags register: its bits (`10_state.md` R17), what CMP writes
(`44_compare_control.md` R134) and what JEQ and JNE test (R136, R137). -/

namespace Sys2Proof.Machine

/-- `EQUAL`: bit 0 of `FL` (R17). -/
def flEqual : Byte := 0x01#8

/-- `GREATER`: bit 1 of `FL` (R17). -/
def flGreater : Byte := 0x02#8

/-- `LESS`: bit 2 of `FL` (R17). -/
def flLess : Byte := 0x04#8

/-- The flag bit `E` (R17). -/
def State.flagE (s : State) : Bool := s.fl.getLsbD 0

/-- The flag bit `G` (R17). -/
def State.flagG (s : State) : Bool := s.fl.getLsbD 1

/-- The flag bit `L` (R17). -/
def State.flagL (s : State) : Bool := s.fl.getLsbD 2

/-- What CMP writes to `FL` for the left value `x` and the right value `y`, compared as unsigned
numbers; the whole byte is replaced (R134). -/
def compareFlags (x y : Byte) : Byte :=
  if x = y then flEqual else if y.toNat < x.toNat then flGreater else flLess

/-- The test of JEQ and JNE: the whole byte is compared with `EQUAL` (R136, decision D19). -/
def State.lastEqual (s : State) : Bool := s.fl == flEqual

end Sys2Proof.Machine
end

