-- ==== Sys2Proof/Machine/Control.lean ====
section
/-! DEFINITION. Compare and control transfer: CALL, RET, CMP, JMP, JEQ, JNE
(`44_compare_control.md` R130 to R137). The five transfers write `PC` themselves in every case. -/

namespace Sys2Proof.Machine

/-- A transfer to an 8-bit target, zero-extended to `PC` (R130). -/
def State.jumpTo (s : State) (target : Byte) : State := s.setPc (zext9 target)

/-- CALL (R131): a return address above 255 faults before anything is written (decision D8); the
target is read after `SP` was decremented (decision D17). -/
def execCall (a : Byte) (s : State) : Result :=
  withReg a s fun ra =>
    if (s.nextPc 1).toNat > 255 then raise .outOfRangeAddress (s.nextPc 1) s
    else
      let t := s.push fun _ => (s.nextPc 1).setWidth 8
      .next (t.jumpTo (t.reg ra))

/-- RET (R132). -/
def execRet (s : State) : Result := .next (s.incSp.jumpTo s.top)

/-- CMP (R134). -/
def execCmp (a b : Byte) (s : State) : Result :=
  withRegs a b s fun ra rb => .next ((s.setFl (compareFlags (s.reg ra) (s.reg rb))).advance 2)

/-- JMP (R135). -/
def execJmp (a : Byte) (s : State) : Result :=
  withReg a s fun ra => .next (s.jumpTo (s.reg ra))

/-- JEQ (R136): the register operand is checked also when the jump is not taken. -/
def execJeq (a : Byte) (s : State) : Result :=
  withReg a s fun ra => .next (if s.lastEqual then s.jumpTo (s.reg ra) else s.advance 1)

/-- JNE (R137), the complement of JEQ. -/
def execJne (a : Byte) (s : State) : Result :=
  withReg a s fun ra => .next (if s.lastEqual then s.advance 1 else s.jumpTo (s.reg ra))

end Sys2Proof.Machine
end

