-- ==== Sys2Proof/Machine/Stack.lean ====
section
/-! DEFINITION. The stack instructions PUSH and POP (`43_stack.md` R120 to R124). -/

namespace Sys2Proof.Machine

/-- PUSH (R121): `R[a]` is read after the decrement, so `PUSH R7` stores the decremented `SP`
(decision D17). -/
def execPush (a : Byte) (s : State) : Result :=
  withReg a s fun ra => .next ((s.push fun t => t.reg ra).advance 1)

/-- POP (R122): the destination is written first, then `R[7]` is incremented, so `POP R7` ends with
the popped value plus one (decision D17). -/
def execPop (a : Byte) (s : State) : Result :=
  withReg a s fun ra => .next ((s.setReg ra s.top).incSp.advance 1)

end Sys2Proof.Machine
end

