-- ==== Sys2Proof/Machine/System.lean ====
section
/-! DEFINITION. The system and data-movement instructions HLT, LDI, PRN (`41_system_data.md`). -/

namespace Sys2Proof.Machine

/-- HLT (R90): halt with cause HaltInstruction; `PC` is advanced past it (R77). -/
def execHlt (s : State) : Result := .next (takeHalt .haltInstruction 0 0 s)

/-- LDI (R91): `R[a] <- b`, where `b` is a value and never checked. -/
def execLdi (a imm : Byte) (s : State) : Result :=
  withReg a s fun ra => .next ((s.setReg ra (immediate imm)).advance 2)

/-- PRN (R92): hand `R[a]` to the output sink. -/
def execPrn (a : Byte) (s : State) : Result :=
  withReg a s fun ra => .next ((s.emit (.out (s.reg ra))).advance 1)

end Sys2Proof.Machine
end

