-- ==== Sys2Proof/Machine/Fetch.lean ====
section
/-! DEFINITION. Fetching an instruction's bytes and the faults of fetch and decode
(`40_dispatch_loop.md` R73 to R75, `60_exceptions.md` R151, R152, R156). -/

namespace Sys2Proof.Machine

/-- The bytes at `addr`, `addr + 1`, ... inside the memory, at most `count` of them. -/
def bytesFrom (s : State) (addr count : Nat) : List Byte :=
  match count with
  | 0 => []
  | k + 1 => if addr < Config.memSize then s.byteAt addr :: bytesFrom s (addr + 1) k else []

/-- The bytes an instruction at `PC` can have: those at `PC`, `PC + 1`, `PC + 2` that exist (R74,
R75). Reading an operand byte ahead of the opcode's lookup has no effect (R31; log entry 7). -/
def fetchBytes (s : State) : List Byte := bytesFrom s s.pc.toNat (1 + Config.maxOperands)

/-- The fault of a fetch or a decode that gives no instruction, in the order of R156: an opcode
address above 255, an unrecognised opcode, an operand address above 255. -/
def takeDecodeFault (e : DecodeError) (s : State) : State :=
  match e with
  | .noOpcode => takeFault .outOfRangeAddress s.pc s
  | .unrecognizedOpcode b => takeFault .unrecognizedOpcode (zext9 b) s
  | .missingOperand k => takeFault .outOfRangeAddress (s.pc + BitVec.ofNat 9 k) s

end Sys2Proof.Machine
end

