-- ==== Sys2Proof/Machine/Step.lean ====
section
/-! DEFINITION. The step of the dispatch loop (`40_dispatch_loop.md` R73), under any opcode map and
under the default one. -/

namespace Sys2Proof.Machine

/-- One step under the opcode map `m` (R73). Only a `Running` machine takes a step; in `Ready`,
`Halted` and `Faulted` there is none and the state stays as it is (R71, R78, R181; log entry 4). -/
def stepWith (m : OpcodeMap) (s : State) : Host.Outcome State Fault Refusal :=
  match s.run with
  | .running =>
    match decodeWith m (fetchBytes s) with
    | .ok (i, _) => exec i s
    | .error e => .next (takeDecodeFault e s)
  | .ready | .halted | .faulted => .next s

/-- One step of the machine, under the default opcode map (R56). -/
def step (s : State) : Host.Outcome State Fault Refusal := stepWith defaultOpcodeMap s

/-- The state whose next step runs the instruction with the bits `w`, loaded from outside the
machine (log entry 5): its bytes stand at `PC`, or at address 0 where the longest instruction does
not fit at `PC`, and the machine is started. -/
def State.withFetchWord (s : State) (nbits w : Nat) : State :=
  let base : Pc := if s.pc.toNat + 2 < Config.memSize then s.pc else 0
  { s with
    mem := Memory.writeBytes s.mem base.toNat (tableBytes nbits w), pc := base, run := .running }

end Sys2Proof.Machine
end

