-- ==== Sys2Proof/Machine/HostInterface.lean ====
section
/-! DEFINITION. The host's events `reset`, `load`, `start` and its read of the status
(`70_reset_and_hazards.md` R180 to R186), and the host's rendering of the output (R24, R5). -/

namespace Sys2Proof.Machine

/-- The events the host can give (R183). -/
inductive HostEvent where
  | reset
  | load (bytes : List Byte)
  | start
  deriving DecidableEq, Repr

/-- `reset`: every piece of state to its reset value, in any run state (R180). -/
def hostReset (_s : State) : Result := .next State.reset

/-- `load(bytes)` (R43, R186): in `Ready` the bytes are written from address 0 on; cells beyond
them keep their value (decision D18). More than 256 bytes are refused (U13). No effect in another
run state (decision D16). -/
def hostLoad (bytes : List Byte) (s : State) : Result :=
  if bytes.length ≤ Config.memSize then
    if s.run = .ready then .next { s with mem := Memory.writeBytes s.mem 0 bytes } else .next s
  else .refused (.programTooLong bytes.length)

/-- `start` (R72): `Ready` becomes `Running` and nothing else changes; no effect in another run
state (decision D16). -/
def hostStart (s : State) : Result :=
  if s.run = .ready then .next { s with run := .running } else .next s

/-- What an event of the host does (R71). -/
def hostEvent (e : HostEvent) (s : State) : Result :=
  match e with
  | .reset => hostReset s
  | .load bytes => hostLoad bytes s
  | .start => hostStart s

/-- What the host can read of a machine that is not running (R164, R183). -/
structure Status where
  run : BitVec 2
  cause : BitVec 3
  causePc : Pc
  causeInfo : Info
  regs : Vector Byte 8
  pc : Pc
  fl : Byte
  mem : List Byte
  out : List OutEvent
  deriving DecidableEq, Repr

/-- The status read: allowed when `RUN` is not `Running` (R183). -/
def statusRead (s : State) : Option Status :=
  if s.run = .running then none
  else some {
    run := s.run.code, cause := s.cause.code, causePc := s.causePc, causeInfo := s.causeInfo,
    regs := s.regs, pc := s.pc, fl := s.fl, mem := (List.range Config.memSize).map s.byteAt,
    out := s.out }

/-- The text of one event: a printed value is its decimal numeral without leading zeros (R24, R92);
the wording of a diagnostic is the host's and is not modelled (R4). -/
def eventText (separator : String) (e : OutEvent) : String :=
  match e with
  | .out v => toString v.toNat ++ separator
  | .diag _ _ _ => ""

/-- The printed text of an output trace (R24), with the separator `OUT_SEPARATOR` (R5). -/
def outText (separator : String) (out : List OutEvent) : String :=
  match out with
  | [] => ""
  | e :: rest => eventText separator e ++ outText separator rest

end Sys2Proof.Machine
end

