-- ==== Sys2Proof/Safety.lean ====
section
/-! DEFINITION. The terms in which claims speak of runs: what a normal end is, the invariant of the
machine, the states a machine can reach, and the parts of a state a program can depend on. -/

namespace Sys2Proof.Machine

/-- A run that ended by HLT. `Halted` alone does not tell HLT from a zero divisor (U6). -/
def State.HaltedNormally (s : State) : Prop := s.run = .halted ∧ s.cause = .haltInstruction

/-- A run that ended in a fault (R157). -/
def State.Faulted (s : State) : Prop := s.run = .faulted

/-- A state of a safe run: it has not faulted. -/
def State.Safe (s : State) : Prop := ¬ s.Faulted

/-- The invariant of the machine: what holds in every state a machine can reach. -/
structure MachineInv (s : State) : Prop where
  /-- memory keeps its canonical form -/
  memory : Memory.wf s.mem
  /-- `FL` has at most one bit set, and only among bits 2:0 (R18) -/
  flags : s.fl = 0x00#8 ∨ s.fl = 0x01#8 ∨ s.fl = 0x02#8 ∨ s.fl = 0x04#8
  /-- `PC` is at most 256 (R15) -/
  pc : s.pc.toNat ≤ 256
  /-- a run that has not stopped has recorded nothing (R21) -/
  notStopped : s.run = .ready ∨ s.run = .running →
    s.cause = .none ∧ s.causePc = 0 ∧ s.causeInfo = 0
  /-- a halted run has a halt cause and what R150 records for it -/
  halted : s.run = .halted →
    (s.cause = .haltInstruction ∧ s.causeInfo = 0) ∨
    (s.cause = .divideByZero ∧ s.causeInfo.toNat < 8)
  /-- a faulted run has a fault cause and what R150 records for it; the only address ever recorded
  is 256 (R21) -/
  faulted : s.run = .faulted →
    (s.cause = .unrecognizedOpcode ∧ s.causeInfo.toNat < 256) ∨
    (s.cause = .outOfRangeAddress ∧ s.causeInfo = 256) ∨
    (s.cause = .outOfRangeRegister ∧ 7 < s.causeInfo.toNat ∧ s.causeInfo.toNat < 256)
  /-- the instruction that stopped the run began at an address of at most 256 (R15, R21) -/
  causePc : s.causePc.toNat ≤ 256
  /-- the step that stops the run with a cause 2..5 hands over that same `Diag`, as the last event
  (R24) -/
  reported : s.cause ≠ .none → s.cause ≠ .haltInstruction →
    s.out.getLast? = some (.diag s.cause s.causePc s.causeInfo)

/-- The states a machine can reach: from reset, by the host's events and by its own steps (R71). -/
inductive Reachable : State → Prop where
  | reset : Reachable State.reset
  | host {s t : State} (e : HostEvent) : Reachable s → hostEvent e s = .next t → Reachable t
  | step {s t : State} : Reachable s → step s = .next t → Reachable t

/-- Two states that agree on everything an instruction can read: `CAUSE*` and the output trace may
differ (R21, R24). -/
def SameVisible (s t : State) : Prop :=
  s.mem = t.mem ∧ s.regs = t.regs ∧ s.pc = t.pc ∧ s.fl = t.fl ∧ s.run = t.run

/-- The bytes at `PC` are those of instruction `i` under the opcode map `m`, all of them inside the
memory (R34, R50). -/
def InstructionAtPc (m : OpcodeMap) (s : State) (i : Instr) : Prop :=
  s.pc.toNat + (encodeWith m i).length ≤ Config.memSize ∧
  ∀ k, (h : k < (encodeWith m i).length) → s.byteAt (s.pc.toNat + k) = (encodeWith m i)[k]

/-- `k` steps under the opcode map `m`, each of which answers a next state. -/
inductive StepsTo (m : OpcodeMap) : Nat → State → State → Prop where
  | zero (s : State) : StepsTo m 0 s s
  | succ {k : Nat} {s t u : State} : stepWith m s = .next t → StepsTo m k t u →
      StepsTo m (k + 1) s u

/-- The next state of an answer, where there is one. -/
def nextState (r : Result) : Option State :=
  match r with
  | .next s => some s
  | .fault f => nomatch f
  | .refused _ => none

end Sys2Proof.Machine
end

