-- ==== Sys2Proof/Certificates/Slice0/Obligations.lean ====
section
/-! DEFINITION. The statements about the LS-8 core. A register operand byte `a` with
`a.toNat < 8` names the register `R[a]`, written `s.reg ⟨a.toNat, ha⟩`. Throughout, the registers
`CAUSE*`, their codes and the `Diag` of every cause 2 to 5 are the spec's own decision D13 (log entry
10), and the advanced `PC` of a halted machine is its decision D20 (log entry 20). -/

open Sys2Proof Sys2Proof.Machine

/-! ## Reset and the host (`70_reset_and_hazards.md`) -/

/-- R180: `reset`, given in any state, answers the state in which every piece of state has its reset
value and nothing of the state before survives. Memory, `SP` and `RUN` are the source's values; the
others are the spec's own decisions D3, D4, D5 and D13 (log entry 3). -/
def Obligations.ResetGivesEveryStateItsResetValue : Prop :=
  ∀ s : State, ∃ t, hostEvent .reset s = .next t ∧ t = State.reset ∧
    (∀ x < 256, t.byteAt x = 0x00#8) ∧ (∀ r : Fin 8, r ≠ 7 → t.reg r = 0x00#8) ∧
    t.reg 7 = 0xF4#8 ∧ t.pc = 0 ∧ t.fl = 0x00#8 ∧ t.run = .ready ∧
    t.cause = .none ∧ t.cause.code = 0 ∧ t.causePc = 0 ∧ t.causeInfo = 0 ∧ t.out = []

/-- R72, with R71's row for `start`: it turns `Ready` into `Running` and changes nothing else, and
has no effect in any other run state (the spec's own decision D16, log entry 14). -/
def Obligations.StartOnlyTurnsReadyIntoRunning : Prop :=
  ∀ s : State,
    (s.run = .ready → hostEvent .start s = .next { s with run := .running }) ∧
    (s.run ≠ .ready → hostEvent .start s = .next s)

/-- R43, R186: `load` of at most 256 bytes in `Ready` gives byte `k` to cell `k`, leaves the cells
beyond and everything else; elsewhere it has no effect (the spec's own decisions D16 and D18, log
entry 14); a longer program is refused (log entry 13). -/
def Obligations.LoadWritesBytesFromAddressZero : Prop :=
  ∀ (s : State) (bytes : List Byte),
    (bytes.length ≤ 256 → s.run = .ready →
      ∃ t, hostEvent (.load bytes) s = .next t ∧
        (∀ k, (h : k < bytes.length) → t.byteAt k = bytes[k]) ∧
        (∀ x, bytes.length ≤ x → t.byteAt x = s.byteAt x) ∧
        t = { s with mem := t.mem }) ∧
    (bytes.length ≤ 256 → s.run ≠ .ready → hostEvent (.load bytes) s = .next s) ∧
    (256 < bytes.length →
      hostEvent (.load bytes) s = .refused (.programTooLong bytes.length))

/-- R164, R183: the host can read the status of a machine exactly when it is not running, and then
reads the codes of `RUN` and `CAUSE`, every register and every cell of memory. -/
def Obligations.StatusReadableExactlyWhenNotRunning : Prop :=
  ∀ s : State,
    (s.run = .running → statusRead s = none) ∧
    (s.run ≠ .running → ∃ st, statusRead s = some st ∧
      st.run = s.run.code ∧ st.cause = s.cause.code ∧ st.causePc = s.causePc ∧
      st.causeInfo = s.causeInfo ∧ st.regs = s.regs ∧ st.pc = s.pc ∧ st.fl = s.fl ∧
      st.out = s.out ∧ st.mem.length = 256 ∧
      ∀ k, (h : k < st.mem.length) → st.mem[k] = s.byteAt k)

/-- R24, R92, with the separator a parameter (R5): a printed value adds its decimal numeral and one
separator to the text of the trace, wherever it is appended. -/
def Obligations.PrintedValueAppendsItsNumeral : Prop :=
  ∀ (separator : String) (trace : List OutEvent) (v : Byte),
    outText separator (trace ++ [.out v]) =
      outText separator trace ++ (toString v.toNat ++ separator)

/-! ## The invariant of the machine -/

/-- The state after reset meets the invariant. -/
def Obligations.ResetMeetsMachineInvariant : Prop := MachineInv State.reset

/-- Every step keeps the invariant: memory in canonical form, `FL` one of 00, 01, 02, 04 (R18), `PC`
at most 256 (R15), and `CAUSE*` and the trace as R21, R24 and R150 say, under every opcode map. -/
def Obligations.EveryStepKeepsMachineInvariant : Prop :=
  ∀ (m : OpcodeMap) (s t : State), MachineInv s → stepWith m s = .next t → MachineInv t

/-- Every event of the host keeps the invariant. -/
def Obligations.EveryHostEventKeepsMachineInvariant : Prop :=
  ∀ (e : HostEvent) (s t : State), MachineInv s → hostEvent e s = .next t → MachineInv t

/-- Every state a machine can reach from reset, by its own steps and the host's events in any order,
meets the invariant. -/
def Obligations.EveryReachableStateMeetsMachineInvariant : Prop :=
  ∀ s : State, Reachable s → MachineInv s

/-- Memories in canonical form (the model's own form, log entry 9) that read alike at every address
are the same data. -/
def Obligations.CanonicalMemoriesReadingAlikeAreEqual : Prop :=
  ∀ m m' : Memory, Memory.wf m → Memory.wf m' →
    (∀ x < 256, Memory.read m x = Memory.read m' x) → m = m'

/-- A write inside the memory sets its cell to the value and changes no other cell (R32). The last
clause is no rule of the spec: the write keeps the canonical form, which is the model's own choice of
form (log entry 9). -/
def Obligations.MemoryWriteSetsItsCellOnly : Prop :=
  ∀ (m : Memory) (addr : Nat) (v : Byte), Memory.wf m → addr < 256 →
    Memory.read (Memory.write m addr v) addr = v ∧
    (∀ x, x ≠ addr → Memory.read (Memory.write m addr v) x = Memory.read m x) ∧
    Memory.wf (Memory.write m addr v)

/-! ## Encoding and decode (`30_encoding.md`) -/

/-- R58 of the default map: 22 distinct bytes, count field, PC-control bit, 0xFF not assigned; and
R57: 0x00 is not assigned, and 234 of the 256 bytes are unrecognised. The map is the spec's own
choice D1 (log entry 1). -/
def Obligations.DefaultOpcodeMapIsAdmissible : Prop :=
  OpcodeMap.Admissible defaultOpcodeMap ∧ lookupOpcode defaultOpcodeMap 0x00#8 = none ∧
  ((List.range 256).filter fun b =>
    (lookupOpcode defaultOpcodeMap (BitVec.ofNat 8 b)).isNone).length = 234

/-- Decoding the encoding of any instruction, with any bytes after it, gives it back with every
operand byte, and gives the bytes after it, under every opcode map that meets R58. -/
def Obligations.DecodeOfEncodeIsIdentity : Prop :=
  ∀ (m : OpcodeMap) (i : Instr) (rest : List Byte), OpcodeMap.Admissible m →
    decodeWith m (encodeWith m i ++ rest) = .ok (i, rest)

/-- What the decoder reads an instruction from is that instruction's encoding: each word has one
meaning, and no operand byte is dropped. -/
def Obligations.DecodedBytesAreTheEncoding : Prop :=
  ∀ (m : OpcodeMap) (bytes rest : List Byte) (i : Instr),
    decodeWith m bytes = .ok (i, rest) → bytes = encodeWith m i ++ rest

/-- R57: every byte with the count field 3 (0xFF among them) is unrecognised under every map that
meets R58 (the spec's own decision D11, log entry 1). -/
def Obligations.CountFieldThreeIsUnrecognized : Prop :=
  ∀ (m : OpcodeMap) (b : Byte) (rest : List Byte), OpcodeMap.Admissible m → 0xC0 ≤ b.toNat →
    decodeWith m (b :: rest) = .error (.unrecognizedOpcode b)

/-- Words written out from R52 and R56 decode to the instructions they stand for, under the default
map (the spec's own choice D1, log entry 1). -/
def Obligations.WrittenOutWordsDecode : Prop :=
  decode [0b00000001#8] = .ok (.hlt, []) ∧
  decode [0b10000010#8, 0b00000011#8, 0b00101010#8] = .ok (.ldi 3 42, []) ∧
  decode [0b10100001#8, 0b00000010#8, 0b00000011#8] = .ok (.sub 2 3, []) ∧
  decode [0b01101001#8, 0b00000100#8] = .ok (.not 4, []) ∧
  decode [0b01000110#8, 0b00000001#8] = .ok (.pop 1, []) ∧
  decode [0b00010001#8] = .ok (.ret, []) ∧
  decode [0b10100111#8, 0b00000000#8, 0b00000001#8] = .ok (.cmp 0 1, []) ∧
  decode [0b01010110#8, 0b00000011#8] = .ok (.jne 3, [])

/-! ## The step (`40_dispatch_loop.md`) -/

/-- R73: where the bytes of an instruction, well-formed or not, stand at `PC` inside the memory, the
step of a running machine is `exec` of that instruction at that state, under every map that meets
R58. Nothing is added around `exec`: the advance of `PC` is part of it. -/
def Obligations.StepRunsTheInstructionAtPc : Prop :=
  ∀ (m : OpcodeMap) (s : State) (i : Instr), OpcodeMap.Admissible m → s.run = .running →
    InstructionAtPc m s i → stepWith m s = exec i s

/-- R73 for the machine's own step: when the bytes fetched at `PC` decode to a well-formed
instruction, the step of a running machine is `exec` of that instruction. -/
def Obligations.StepRunsDecodedInstruction : Prop :=
  ∀ (s : State) (i : Instr) (rest : List Byte), s.run = .running →
    decode (fetchBytes s) = .ok (i, rest) → WellFormed i = true → step s = exec i s

/-- The list of bytes the model decodes holds those of the memory at `PC`, `PC + 1`, `PC + 2`, as far
as they exist, as the memory is at the moment of the step. That up to three bytes are read whatever
the opcode is the model's own choice (log entry 7): R74 and R75 fetch the opcode, and the operands
only of a recognised opcode and only as many as it has. -/
def Obligations.FetchReadsMemoryAtPc : Prop :=
  ∀ (s : State) (k : Nat),
    (fetchBytes s)[k]? =
      if k < 3 ∧ s.pc.toNat + k < 256 then some (s.byteAt (s.pc.toNat + k)) else none

/-- A step always answers a next state, in every state and under every map: it is never refused and
never stuck. In Running that is U12; in the other run states, where the spec has no step (R78), the
step function answers the same state, which is the model's own reading (log entry 4). -/
def Obligations.StepAlwaysAnswersNext : Prop :=
  ∀ (m : OpcodeMap) (s : State), ∃ t, stepWith m s = .next t

/-- R78: in `Halted` and `Faulted` a step, a `load` and a `start` leave the state as it is, and only
`reset` leads out (the spec's own decision D16, log entries 4 and 14). -/
def Obligations.TerminalStatesOnlyLeftByReset : Prop :=
  ∀ (m : OpcodeMap) (s : State), s.run = .halted ∨ s.run = .faulted →
    stepWith m s = .next s ∧
    (∀ (e : HostEvent) (t : State), hostEvent e s = .next t → t ≠ s → e = .reset) ∧
    hostEvent .reset s = .next State.reset

/-- R16: how each instruction leaves `PC`, for a running machine with the instruction's bytes at
`PC`: a step that faults leaves it, HLT, PRN and so on are advanced past (also when DIV or MOD halts)
without reduction modulo 256, and the transfers set it. These clauses rest on the spec's own
decisions: that a fault leaves `PC` (D10, log entry 21), the advance of a halt (D20, log entry 20),
the target of CALL with `R[7]` (D17, log entry 19), the test of the whole byte `FL` (D19, log entry
23), the 9-bit sum and the fault at the next fetch (D2, D6, log entries 2 and 22). The faults of a
fetch and of an unrecognised opcode are in FaultsArePrecise. -/
def Obligations.ProgramCounterAfterEachInstruction : Prop :=
  ∀ (m : OpcodeMap) (s t : State) (i : Instr), OpcodeMap.Admissible m → s.run = .running →
    InstructionAtPc m s i → stepWith m s = .next t →
    (t.run = .faulted → t.pc = s.pc) ∧
    (t.run ≠ .faulted →
      (i = .hlt → t.pc.toNat = s.pc.toNat + 1) ∧
      (∀ a, i ∈ [.prn a, .not a, .push a, .pop a] → t.pc.toNat = s.pc.toNat + 2) ∧
      (∀ a b, i ∈ [.ldi a b, .add a b, .sub a b, .mul a b, .div a b, .mod a b, .and a b, .or a b,
          .xor a b, .shl a b, .shr a b, .cmp a b] → t.pc.toNat = s.pc.toNat + 3) ∧
      (∀ a, (ha : a.toNat < 8) → i = .jmp a → t.pc.toNat = (s.reg ⟨a.toNat, ha⟩).toNat) ∧
      (∀ a, (ha : a.toNat < 8) → i = .jeq a → t.pc.toNat =
        if s.fl = 0x01#8 then (s.reg ⟨a.toNat, ha⟩).toNat else s.pc.toNat + 2) ∧
      (∀ a, (ha : a.toNat < 8) → i = .jne a → t.pc.toNat =
        if s.fl ≠ 0x01#8 then (s.reg ⟨a.toNat, ha⟩).toNat else s.pc.toNat + 2) ∧
      (∀ a, (ha : a.toNat < 8) → i = .call a → t.pc.toNat = (t.reg ⟨a.toNat, ha⟩).toNat) ∧
      (i = .ret → t.pc.toNat = (s.byteAt s.sp.toNat).toNat) ∧
      (255 < t.pc.toNat → t.run = .running →
        ∃ u, stepWith m t = .next u ∧ u.run = .faulted))

/-! ## System and data movement (`41_system_data.md`) -/

/-- R90: HLT halts with cause 1, `PC` past it, and changes nothing else. -/
def Obligations.HltHaltsPastItself : Prop :=
  ∀ s : State, exec .hlt s = .next
    { s with run := .halted, cause := .haltInstruction, causePc := s.pc, causeInfo := 0,
             pc := s.pc + 1 }

/-- R91: LDI writes its immediate byte, whatever it is, to the register it names. -/
def Obligations.LdiWritesImmediate : Prop :=
  ∀ (s : State) (a v : Byte) (ha : a.toNat < 8),
    ∃ t, exec (.ldi a v) s = .next t ∧ t.reg ⟨a.toNat, ha⟩ = v ∧ t.pc = s.pc + 3 ∧ t.run = s.run

/-- R92: PRN appends the one event `Out(R[a])` and advances. -/
def Obligations.PrnEmitsRegisterValue : Prop :=
  ∀ (s : State) (a : Byte) (ha : a.toNat < 8),
    ∃ t, exec (.prn a) s = .next t ∧ t.out = s.out ++ [.out (s.reg ⟨a.toNat, ha⟩)] ∧
      t.pc = s.pc + 2 ∧ t.run = s.run

/-- E1 of `95_test_vectors.md` (R91, R92): LDI then PRN, in two steps, hand exactly the loaded value
to the sink, for every register and value. -/
def Obligations.LdiThenPrnEmitsTheValue : Prop :=
  ∀ (m : OpcodeMap) (s : State) (a v : Byte), OpcodeMap.Admissible m → a.toNat < 8 →
    s.run = .running → s.pc.toNat + 5 ≤ 256 →
    (∀ k, (h : k < 5) → s.byteAt (s.pc.toNat + k) = [m .ldi, a, v, m .prn, a][k]) →
    ∃ t, StepsTo m 2 s t ∧ t.out = s.out ++ [.out v] ∧ t.run = .running ∧
      t.pc.toNat = s.pc.toNat + 5

/-! ## The ALU (`42_alu.md`) -/

/-- R103, R104, R105: ADD, SUB and MUL write the sum, the difference and the product of the two old
register values modulo 256. -/
def Obligations.AddSubMulWriteResultModulo256 : Prop :=
  ∀ (s : State) (a b : Byte) (ha : a.toNat < 8) (hb : b.toNat < 8),
    (∃ t, exec (.add a b) s = .next t ∧
      ((t.reg ⟨a.toNat, ha⟩).toNat : Int) =
        ((s.reg ⟨a.toNat, ha⟩).toNat + (s.reg ⟨b.toNat, hb⟩).toNat : Int) % 256 ∧
      t.pc = s.pc + 3 ∧ t.run = s.run) ∧
    (∃ t, exec (.sub a b) s = .next t ∧
      ((t.reg ⟨a.toNat, ha⟩).toNat : Int) =
        ((s.reg ⟨a.toNat, ha⟩).toNat - (s.reg ⟨b.toNat, hb⟩).toNat : Int) % 256 ∧
      t.pc = s.pc + 3 ∧ t.run = s.run) ∧
    (∃ t, exec (.mul a b) s = .next t ∧
      ((t.reg ⟨a.toNat, ha⟩).toNat : Int) =
        ((s.reg ⟨a.toNat, ha⟩).toNat * (s.reg ⟨b.toNat, hb⟩).toNat : Int) % 256 ∧
      t.pc = s.pc + 3 ∧ t.run = s.run)

/-- R106, R107: with a divisor that is not zero, DIV and MOD write the unsigned quotient and
remainder. -/
def Obligations.DivModWriteQuotientAndRemainder : Prop :=
  ∀ (s : State) (a b : Byte) (ha : a.toNat < 8) (hb : b.toNat < 8),
    s.reg ⟨b.toNat, hb⟩ ≠ 0x00#8 →
    (∃ t, exec (.div a b) s = .next t ∧
      (t.reg ⟨a.toNat, ha⟩).toNat =
        (s.reg ⟨a.toNat, ha⟩).toNat / (s.reg ⟨b.toNat, hb⟩).toNat ∧
      t.pc = s.pc + 3 ∧ t.run = s.run) ∧
    (∃ t, exec (.mod a b) s = .next t ∧
      (t.reg ⟨a.toNat, ha⟩).toNat =
        (s.reg ⟨a.toNat, ha⟩).toNat % (s.reg ⟨b.toNat, hb⟩).toNat ∧
      t.pc = s.pc + 3 ∧ t.run = s.run)

/-- R102: a zero divisor, in any divisor register and also as `DIV a, a`, halts with cause 2 and one
`Diag`, past the instruction, with every register unwritten; and the register checks come first. -/
def Obligations.ZeroDivisorHaltsWithDiagnostic : Prop :=
  ∀ (s : State) (a b : Byte), ∀ i ∈ [Instr.div a b, Instr.mod a b],
    (a.toNat < 8 → (hb : b.toNat < 8) → s.reg ⟨b.toNat, hb⟩ = 0x00#8 →
      exec i s = .next
        { s with run := .halted, cause := .divideByZero, causePc := s.pc,
                 causeInfo := b.setWidth 9, pc := s.pc + 3,
                 out := s.out ++ [.diag .divideByZero s.pc (b.setWidth 9)] }) ∧
    (7 < a.toNat ∨ 7 < b.toNat → ∃ t, exec i s = .next t ∧ t.run = .faulted ∧
      t.cause = .outOfRangeRegister)

/-- R108, R109, R110, R111: AND, OR, XOR and NOT act on every bit of the byte. -/
def Obligations.BitwiseInstructionsActOnEachBit : Prop :=
  ∀ (s : State) (a b : Byte) (ha : a.toNat < 8) (hb : b.toNat < 8),
    (∃ t, exec (.and a b) s = .next t ∧
      (∀ k < 8, (t.reg ⟨a.toNat, ha⟩).getLsbD k =
        ((s.reg ⟨a.toNat, ha⟩).getLsbD k && (s.reg ⟨b.toNat, hb⟩).getLsbD k)) ∧
      t.pc = s.pc + 3 ∧ t.run = s.run) ∧
    (∃ t, exec (.or a b) s = .next t ∧
      (∀ k < 8, (t.reg ⟨a.toNat, ha⟩).getLsbD k =
        ((s.reg ⟨a.toNat, ha⟩).getLsbD k || (s.reg ⟨b.toNat, hb⟩).getLsbD k)) ∧
      t.pc = s.pc + 3 ∧ t.run = s.run) ∧
    (∃ t, exec (.xor a b) s = .next t ∧
      (∀ k < 8, (t.reg ⟨a.toNat, ha⟩).getLsbD k =
        ((s.reg ⟨a.toNat, ha⟩).getLsbD k ^^ (s.reg ⟨b.toNat, hb⟩).getLsbD k)) ∧
      t.pc = s.pc + 3 ∧ t.run = s.run) ∧
    (∃ t, exec (.not a) s = .next t ∧
      (∀ k < 8, (t.reg ⟨a.toNat, ha⟩).getLsbD k = !(s.reg ⟨a.toNat, ha⟩).getLsbD k) ∧
      t.pc = s.pc + 2 ∧ t.run = s.run)

/-- R112, R113: SHL and SHR shift by the full value of `R[b]`, filling with zeros; an amount of 8 or
more gives 0. -/
def Obligations.ShiftsByFullRegisterValue : Prop :=
  ∀ (s : State) (a b : Byte) (ha : a.toNat < 8) (hb : b.toNat < 8),
    (∃ t, exec (.shl a b) s = .next t ∧
      (t.reg ⟨a.toNat, ha⟩).toNat =
        ((s.reg ⟨a.toNat, ha⟩).toNat * 2 ^ (s.reg ⟨b.toNat, hb⟩).toNat) % 256 ∧
      (8 ≤ (s.reg ⟨b.toNat, hb⟩).toNat → t.reg ⟨a.toNat, ha⟩ = 0x00#8) ∧
      t.pc = s.pc + 3 ∧ t.run = s.run) ∧
    (∃ t, exec (.shr a b) s = .next t ∧
      (t.reg ⟨a.toNat, ha⟩).toNat =
        (s.reg ⟨a.toNat, ha⟩).toNat / 2 ^ (s.reg ⟨b.toNat, hb⟩).toNat ∧
      (8 ≤ (s.reg ⟨b.toNat, hb⟩).toNat → t.reg ⟨a.toNat, ha⟩ = 0x00#8) ∧
      t.pc = s.pc + 3 ∧ t.run = s.run)

/-- R101 against the word arithmetic of 8 bits: computing in the integers and reducing modulo 256 is
the modular operation on bytes, for every operation and all operands with a divisor that is not
zero. -/
def Obligations.AluEqualsByteArithmetic : Prop :=
  ∀ x y : Byte,
    alu .add x y = x + y ∧ alu .sub x y = x - y ∧ alu .mul x y = x * y ∧
    (y ≠ 0x00#8 → alu .div x y = x / y ∧ alu .mod x y = x % y) ∧
    alu .and x y = x &&& y ∧ alu .or x y = x ||| y ∧ alu .xor x y = x ^^^ y ∧
    alu .not x y = ~~~x ∧ alu .shl x y = x <<< y.toNat ∧ alu .shr x y = x >>> y.toNat

/-- R114: with one register as source and destination both values are read before the write. -/
def Obligations.SameRegisterReadsBothBeforeWrite : Prop :=
  ∀ (s : State) (a : Byte) (ha : a.toNat < 8) (t : State), s.run = .running →
    (exec (.add a a) s = .next t →
      (t.reg ⟨a.toNat, ha⟩).toNat = 2 * (s.reg ⟨a.toNat, ha⟩).toNat % 256) ∧
    (exec (.sub a a) s = .next t ∨ exec (.xor a a) s = .next t → t.reg ⟨a.toNat, ha⟩ = 0x00#8) ∧
    (exec (.mul a a) s = .next t →
      (t.reg ⟨a.toNat, ha⟩).toNat = (s.reg ⟨a.toNat, ha⟩).toNat ^ 2 % 256) ∧
    (exec (.and a a) s = .next t ∨ exec (.or a a) s = .next t →
      t.reg ⟨a.toNat, ha⟩ = s.reg ⟨a.toNat, ha⟩) ∧
    (exec (.div a a) s = .next t →
      if s.reg ⟨a.toNat, ha⟩ = 0x00#8 then t.run = .halted else t.reg ⟨a.toNat, ha⟩ = 0x01#8) ∧
    (exec (.mod a a) s = .next t →
      if s.reg ⟨a.toNat, ha⟩ = 0x00#8 then t.run = .halted else t.reg ⟨a.toNat, ha⟩ = 0x00#8) ∧
    (exec (.shl a a) s = .next t → (t.reg ⟨a.toNat, ha⟩).toNat =
      ((s.reg ⟨a.toNat, ha⟩).toNat * 2 ^ (s.reg ⟨a.toNat, ha⟩).toNat) % 256) ∧
    (exec (.shr a a) s = .next t → (t.reg ⟨a.toNat, ha⟩).toNat =
      (s.reg ⟨a.toNat, ha⟩).toNat / 2 ^ (s.reg ⟨a.toNat, ha⟩).toNat)

/-- E9 of `95_test_vectors.md` (R111): NOT executed twice on a register restores every register. -/
def Obligations.NotTwiceRestoresRegister : Prop :=
  ∀ (s t u : State) (a : Byte), a.toNat < 8 →
    exec (.not a) s = .next t → exec (.not a) t = .next u → ∀ r, u.reg r = s.reg r

/-! ## The stack (`43_stack.md`) -/

/-- R121, R38: PUSH of a register other than `R[7]` stores its value at `(SP - 1) mod 256`, whatever
that cell holds, and `SP` becomes that address, also across the wrap at 0. -/
def Obligations.PushStoresBelowStackPointer : Prop :=
  ∀ (s : State) (a : Byte) (ha : a.toNat < 8), a.toNat ≠ 7 →
    ∃ t, exec (.push a) s = .next t ∧
      t.sp.toNat = (s.sp.toNat + 255) % 256 ∧
      t.byteAt ((s.sp.toNat + 255) % 256) = s.reg ⟨a.toNat, ha⟩ ∧
      t.pc = s.pc + 2 ∧ t.run = s.run

/-- R122: POP into a register other than `R[7]` reads the cell at `SP` and increments `SP`, also
across the wrap at 255. -/
def Obligations.PopLoadsAtStackPointer : Prop :=
  ∀ (s : State) (a : Byte) (ha : a.toNat < 8), a.toNat ≠ 7 →
    ∃ t, exec (.pop a) s = .next t ∧
      t.reg ⟨a.toNat, ha⟩ = s.byteAt s.sp.toNat ∧
      t.sp.toNat = (s.sp.toNat + 1) % 256 ∧
      t.pc = s.pc + 2 ∧ t.run = s.run

/-- R121, R122, R131 with `R[7]` as the operand: the effects happen in the order written (the spec's
own decision D17, log entry 19): PUSH stores the decremented `SP`, POP ends with the popped value plus
one, CALL jumps to the decremented `SP`. -/
def Obligations.StackPointerOperandSeesEarlierEffects : Prop :=
  ∀ s : State,
    (∃ t, exec (.push 7) s = .next t ∧ t.sp = s.sp - 1 ∧ t.byteAt (s.sp - 1).toNat = s.sp - 1) ∧
    (∃ t, exec (.pop 7) s = .next t ∧ t.sp = s.byteAt s.sp.toNat + 1) ∧
    (s.pc.toNat < 254 →
      ∃ t, exec (.call 7) s = .next t ∧ t.sp = s.sp - 1 ∧ t.pc.toNat = (s.sp - 1).toNat)

/-- R123: PUSH then POP, in two steps, moves the value and restores `SP`, for every two registers
other than `R[7]` and every `SP`, provided the push did not overwrite the bytes of the POP. -/
def Obligations.PushThenPopMovesValueAndRestoresStack : Prop :=
  ∀ (m : OpcodeMap) (s : State) (a b : Byte) (ha : a.toNat < 7) (hb : b.toNat < 7),
    OpcodeMap.Admissible m → s.run = .running → s.pc.toNat + 4 ≤ 256 →
    (∀ k, (h : k < 4) → s.byteAt (s.pc.toNat + k) = [m .push, a, m .pop, b][k]) →
    pushAddr s ≠ s.pc.toNat + 2 → pushAddr s ≠ s.pc.toNat + 3 →
    ∃ t, StepsTo m 2 s t ∧
      t.reg ⟨b.toNat, by omega⟩ = s.reg ⟨a.toNat, by omega⟩ ∧ t.sp = s.sp ∧
      t.run = .running ∧ t.pc.toNat = s.pc.toNat + 4

/-! ## Compare and control transfer (`44_compare_control.md`) -/

/-- R131: CALL pushes the address of the byte after its operand and continues at the address in its
register. That with `R[7]` the address is the decremented `SP` is the spec's own decision D17 (log
entry 19). -/
def Obligations.CallPushesReturnAddressAndJumps : Prop :=
  ∀ (s : State) (a : Byte) (ha : a.toNat < 8), s.pc.toNat < 254 →
    ∃ t, exec (.call a) s = .next t ∧
      t.sp.toNat = (s.sp.toNat + 255) % 256 ∧
      (t.byteAt ((s.sp.toNat + 255) % 256)).toNat = s.pc.toNat + 2 ∧
      (a.toNat ≠ 7 → t.pc.toNat = (s.reg ⟨a.toNat, ha⟩).toNat) ∧
      t.pc.toNat = (t.reg ⟨a.toNat, ha⟩).toNat ∧ t.run = s.run

/-- R131: CALL at 254 faults with OutOfRangeAddress(256) and pushes nothing (the spec's own decision
D8, log entry 18); the register check comes first (D9, log entry 21). -/
def Obligations.CallWithoutByteReturnAddressFaults : Prop :=
  ∀ (s : State) (a : Byte), s.pc = 254 →
    (a.toNat < 8 → exec (.call a) s = .next
      { s with run := .faulted, cause := .outOfRangeAddress, causePc := s.pc, causeInfo := 256,
               out := s.out ++ [.diag .outOfRangeAddress s.pc 256] }) ∧
    (7 < a.toNat → ∃ t, exec (.call a) s = .next t ∧ t.cause = .outOfRangeRegister)

/-- R132: RET continues at the address in the cell at `SP`, whoever wrote it, and increments `SP`. -/
def Obligations.RetJumpsToPoppedAddress : Prop :=
  ∀ s : State, ∃ t, exec .ret s = .next t ∧
    t.pc.toNat = (s.byteAt s.sp.toNat).toNat ∧ t.sp.toNat = (s.sp.toNat + 1) % 256 ∧ t.run = s.run

/-- R133: where the subroutine leaves `SP` and the return cell as CALL left them, RET resumes after
the CALL's operand with `SP` as before the CALL, whatever else the subroutine did. -/
def Obligations.CallThenReturnResumesAfterOperand : Prop :=
  ∀ (s t u : State) (a : Byte), a.toNat < 8 → s.pc.toNat < 254 → exec (.call a) s = .next t →
    u.sp = t.sp → u.byteAt t.sp.toNat = t.byteAt t.sp.toNat →
    ∃ v, exec .ret u = .next v ∧ v.pc.toNat = s.pc.toNat + 2 ∧ v.sp = s.sp

/-- R134: CMP replaces the whole of `FL` by 01, 02 or 04, comparing the registers as unsigned
numbers. -/
def Obligations.CmpReplacesFlagsUnsigned : Prop :=
  ∀ (s : State) (a b : Byte) (ha : a.toNat < 8) (hb : b.toNat < 8),
    ∃ t, exec (.cmp a b) s = .next t ∧
      ((s.reg ⟨a.toNat, ha⟩).toNat = (s.reg ⟨b.toNat, hb⟩).toNat →
        t.fl = 0x01#8 ∧ t.flagE = true ∧ t.flagG = false ∧ t.flagL = false) ∧
      ((s.reg ⟨b.toNat, hb⟩).toNat < (s.reg ⟨a.toNat, ha⟩).toNat →
        t.fl = 0x02#8 ∧ t.flagE = false ∧ t.flagG = true ∧ t.flagL = false) ∧
      ((s.reg ⟨a.toNat, ha⟩).toNat < (s.reg ⟨b.toNat, hb⟩).toNat →
        t.fl = 0x04#8 ∧ t.flagE = false ∧ t.flagG = false ∧ t.flagL = true) ∧
      t.pc = s.pc + 3 ∧ t.run = s.run

/-- R135: JMP sets `PC` to the register's value and changes nothing else. -/
def Obligations.JmpSetsProgramCounterOnly : Prop :=
  ∀ (s : State) (a : Byte) (ha : a.toNat < 8),
    exec (.jmp a) s = .next { s with pc := (s.reg ⟨a.toNat, ha⟩).setWidth 9 }

/-- R136, R137: JEQ jumps exactly when `FL` is 0x01 and JNE exactly when it is not; the one that does
not jump goes on after its operand; both change `PC` only. That the whole byte is tested is the
spec's own decision D19 (log entry 23). -/
def Obligations.ConditionalJumpsTestEqual : Prop :=
  ∀ (s : State) (a : Byte) (ha : a.toNat < 8),
    exec (.jeq a) s = .next { s with pc :=
      if s.fl = 0x01#8 then (s.reg ⟨a.toNat, ha⟩).setWidth 9 else s.pc + 2 } ∧
    exec (.jne a) s = .next { s with pc :=
      if s.fl = 0x01#8 then s.pc + 2 else (s.reg ⟨a.toNat, ha⟩).setWidth 9 }

/-- E6 of `95_test_vectors.md` (R134, R136, R137): `CMP a, b` and then JEQ jump exactly when the two
registers hold the same value, and JNE exactly when they do not. -/
def Obligations.CompareThenJumpDecidesEquality : Prop :=
  ∀ (s t u : State) (a b d : Byte) (ha : a.toNat < 8) (hb : b.toNat < 8) (hd : d.toNat < 8),
    exec (.cmp a b) s = .next t →
    (exec (.jeq d) t = .next u → u.pc =
      if s.reg ⟨a.toNat, ha⟩ = s.reg ⟨b.toNat, hb⟩ then (s.reg ⟨d.toNat, hd⟩).setWidth 9
      else t.pc + 2) ∧
    (exec (.jne d) t = .next u → u.pc =
      if s.reg ⟨a.toNat, ha⟩ = s.reg ⟨b.toNat, hb⟩ then t.pc + 2
      else (s.reg ⟨d.toNat, hd⟩).setWidth 9)

/-! ## Faults and halts (`60_exceptions.md`) -/

/-- R154: a register operand above 7 raises OutOfRangeRegister with that byte, `a` before `b`, for
every instruction with a register operand, also for a conditional jump that would not be taken; the
second operand of LDI is never checked. The name and code of the cause are the spec's own decision
D7 (log entry 22), the order of the checks D9 (log entry 21). -/
def Obligations.RegisterOperandAboveSevenFaults : Prop :=
  ∀ (s : State) (a b : Byte),
    (7 < a.toNat →
      ∀ i ∈ [Instr.ldi a b, .prn a, .not a, .push a, .pop a, .call a, .jmp a, .jeq a, .jne a,
          .add a b, .sub a b, .mul a b, .div a b, .mod a b, .and a b, .or a b, .xor a b, .shl a b,
          .shr a b, .cmp a b],
        exec i s = .next
          { s with run := .faulted, cause := .outOfRangeRegister, causePc := s.pc,
                   causeInfo := a.setWidth 9,
                   out := s.out ++ [.diag .outOfRangeRegister s.pc (a.setWidth 9)] }) ∧
    (a.toNat < 8 → 7 < b.toNat →
      ∀ i ∈ [Instr.add a b, .sub a b, .mul a b, .div a b, .mod a b, .and a b, .or a b, .xor a b,
          .shl a b, .shr a b, .cmp a b],
        exec i s = .next
          { s with run := .faulted, cause := .outOfRangeRegister, causePc := s.pc,
                   causeInfo := b.setWidth 9,
                   out := s.out ++ [.diag .outOfRangeRegister s.pc (b.setWidth 9)] }) ∧
    (a.toNat < 8 → ∃ t, exec (.ldi a b) s = .next t ∧ t.run = s.run)

/-- R151: an opcode byte without a dispatch entry, at any address up to 255, ends the run in
`Faulted` with cause 3, the byte and one `Diag`; no operand is read, nothing else changes, and
nothing runs afterwards. -/
def Obligations.UnrecognizedOpcodeFaults : Prop :=
  ∀ (m : OpcodeMap) (s : State), s.run = .running → s.pc.toNat < 256 →
    (∀ o, m o ≠ s.byteAt s.pc.toNat) →
    ∃ t, stepWith m s = .next t ∧ t =
        { s with run := .faulted, cause := .unrecognizedOpcode, causePc := s.pc,
                 causeInfo := (s.byteAt s.pc.toNat).setWidth 9,
                 out := s.out ++ [.diag .unrecognizedOpcode s.pc
                   ((s.byteAt s.pc.toNat).setWidth 9)] } ∧
      stepWith m t = .next t

/-- R152, R156: an opcode fetch above 255, and an operand fetch above 255 of a recognised opcode, end
the run in `Faulted` with cause 4, the address and one `Diag`, and change nothing else. The order of
the checks is the spec's own decision D9 (log entry 21), their moment D6 (log entry 22). -/
def Obligations.FetchBeyondMemoryFaults : Prop :=
  ∀ (m : OpcodeMap) (s : State) (o : Mnemonic), OpcodeMap.Admissible m → s.run = .running →
    (255 < s.pc.toNat → stepWith m s = .next
      { s with run := .faulted, cause := .outOfRangeAddress, causePc := s.pc, causeInfo := s.pc,
               out := s.out ++ [.diag .outOfRangeAddress s.pc s.pc] }) ∧
    (s.pc.toNat < 256 → s.byteAt s.pc.toNat = m o → 255 < s.pc.toNat + o.operandCount →
      stepWith m s = .next
        { s with run := .faulted, cause := .outOfRangeAddress, causePc := s.pc, causeInfo := 256,
                 out := s.out ++ [.diag .outOfRangeAddress s.pc 256] })

/-- R157: a step that ends in `Faulted` records a fault cause with `CAUSE_PC = pc0`, appends the one
`Diag` with the same values, and changes nothing else: `PC`, registers, flags and every byte of
memory are those before the step (the spec's own decision D10, log entry 21). -/
def Obligations.FaultsArePrecise : Prop :=
  ∀ (m : OpcodeMap) (s t : State), s.run = .running → stepWith m s = .next t → t.run = .faulted →
    t = { s with run := .faulted, cause := t.cause, causePc := s.pc, causeInfo := t.causeInfo,
                 out := s.out ++ [.diag t.cause s.pc t.causeInfo] } ∧
    t.cause ∈ [Cause.unrecognizedOpcode, .outOfRangeAddress, .outOfRangeRegister]

/-- R158, R77: a step that ends in `Halted` is HLT, or DIV or MOD with a zero divisor; it records its
cause with `CAUSE_PC = pc0`, advances `PC` past the instruction, appends a `Diag` only for the zero
divisor, and changes nothing else. -/
def Obligations.HaltsRecordCauseAndAdvance : Prop :=
  ∀ (m : OpcodeMap) (s t : State), s.run = .running → stepWith m s = .next t → t.run = .halted →
    ∃ i rest, decodeWith m (fetchBytes s) = .ok (i, rest) ∧
      ((i = .hlt ∧ t = { s with run := .halted, cause := .haltInstruction, causePc := s.pc,
                                causeInfo := 0, pc := s.pc + 1 }) ∨
       (∃ (a b : Byte) (hb : b.toNat < 8), (i = .div a b ∨ i = .mod a b) ∧
          s.reg ⟨b.toNat, hb⟩ = 0x00#8 ∧
          t = { s with run := .halted, cause := .divideByZero, causePc := s.pc,
                       causeInfo := b.setWidth 9, pc := s.pc + 3,
                       out := s.out ++ [.diag .divideByZero s.pc (b.setWidth 9)] }))

/-! ## Whole-machine rules -/

/-- R18: `FL` is written only by CMP. -/
def Obligations.OnlyCmpWritesFlags : Prop :=
  ∀ (m : OpcodeMap) (s t : State), stepWith m s = .next t → t.fl ≠ s.fl →
    ∃ a b rest, decodeWith m (fetchBytes s) = .ok (.cmp a b, rest)

/-- R30: memory is written only by PUSH and CALL, and only at `(SP - 1) mod 256`: where a byte of
memory differs after a step, the step ran one of them and the byte is that one. -/
def Obligations.OnlyPushAndCallWriteMemory : Prop :=
  ∀ (m : OpcodeMap) (s t : State) (x : Nat), stepWith m s = .next t → t.byteAt x ≠ s.byteAt x →
    x = pushAddr s ∧ ∃ a rest, decodeWith m (fetchBytes s) = .ok (.push a, rest) ∨
      decodeWith m (fetchBytes s) = .ok (.call a, rest)

/-- R24: the output trace only grows, by at most one event a step: an `Out` only from PRN, a `Diag`
only from the step that stops the run, carrying what `CAUSE*` then hold. -/
def Obligations.OutputTraceGrowsByOneEvent : Prop :=
  ∀ (m : OpcodeMap) (s t : State), s.run = .running → stepWith m s = .next t →
    t.out = s.out ∨
    (∃ v a rest, decodeWith m (fetchBytes s) = .ok (.prn a, rest) ∧ t.out = s.out ++ [.out v] ∧
      t.run = .running) ∨
    (t.run ≠ .running ∧ t.cause ≠ .none ∧ t.cause ≠ .haltInstruction ∧
      t.out = s.out ++ [.diag t.cause t.causePc t.causeInfo])

/-- R21, R24: no instruction reads `CAUSE*` or the output trace: from two states that differ in
nothing else, a step leads to states that differ in nothing else, appends the same events to both
traces, and, where it stops the run, records the same cause in both; where it does not, it leaves
both records as they are. -/
def Obligations.CauseAndTraceAreNeverRead : Prop :=
  ∀ (m : OpcodeMap) (s s' t t' : State), SameVisible s s' →
    stepWith m s = .next t → stepWith m s' = .next t' →
    SameVisible t t' ∧
    (∃ l, t.out = s.out ++ l ∧ t'.out = s'.out ++ l) ∧
    (t.run ≠ s.run →
      t.cause = t'.cause ∧ t.causePc = t'.causePc ∧ t.causeInfo = t'.causeInfo) ∧
    (t.run = s.run →
      (t.cause = s.cause ∧ t.causePc = s.causePc ∧ t.causeInfo = s.causeInfo) ∧
      t'.cause = s'.cause ∧ t'.causePc = s'.causePc ∧ t'.causeInfo = s'.causeInfo)

/-- R18: `FL` reaches the other state only through the direction of JEQ and JNE: from two states that
differ in `FL` alone, the step of any other instruction leads to states that agree on all the rest,
`CAUSE*` and the output trace included, and either writes the same `FL` in both or leaves it in
both. -/
def Obligations.OnlyConditionalJumpsReadFlags : Prop :=
  ∀ (m : OpcodeMap) (s t t' : State) (fl : Byte),
    (∀ a rest, decodeWith m (fetchBytes s) ≠ .ok (.jeq a, rest) ∧
      decodeWith m (fetchBytes s) ≠ .ok (.jne a, rest)) →
    stepWith m s = .next t → stepWith m { s with fl := fl } = .next t' →
    t.mem = t'.mem ∧ t.regs = t'.regs ∧ t.pc = t'.pc ∧ t.run = t'.run ∧ t.out = t'.out ∧
    t.cause = t'.cause ∧ t.causePc = t'.causePc ∧ t.causeInfo = t'.causeInfo ∧
    (t.fl = t'.fl ∨ (t.fl = s.fl ∧ t'.fl = fl))

/-! ## Frames -/

/-- What LDI and the eleven ALU instructions leave unchanged: every register but `R[a]`, `FL`, every
byte of memory; and, unless they stop the run, `CAUSE*` and the output trace. -/
def Obligations.FrameOfLdiAndAlu : Prop :=
  ∀ (s t : State) (a b : Byte),
    ∀ i ∈ [Instr.ldi a b, .add a b, .sub a b, .mul a b, .div a b, .mod a b, .and a b, .or a b,
        .xor a b, .not a, .shl a b, .shr a b],
    s.run = .running → exec i s = .next t →
      (∀ r : Fin 8, r.val ≠ a.toNat → t.reg r = s.reg r) ∧ t.fl = s.fl ∧
      (∀ x, t.byteAt x = s.byteAt x) ∧
      (t.run = .running → t.cause = s.cause ∧ t.causePc = s.causePc ∧
        t.causeInfo = s.causeInfo ∧ t.out = s.out)

/-- What HLT, PRN, CMP, JMP, JEQ and JNE leave unchanged: every register, every byte of memory, `FL`
but for CMP; and, unless they stop the run, `CAUSE*`, and the output trace but for PRN. -/
def Obligations.FrameOfHltPrnCmpAndJumps : Prop :=
  ∀ (s t : State) (a b : Byte),
    ∀ i ∈ [Instr.hlt, .prn a, .cmp a b, .jmp a, .jeq a, .jne a],
    s.run = .running → exec i s = .next t →
      (∀ r : Fin 8, t.reg r = s.reg r) ∧ (∀ x, t.byteAt x = s.byteAt x) ∧
      (i ≠ .cmp a b → t.fl = s.fl) ∧
      (t.run = .running → t.cause = s.cause ∧ t.causePc = s.causePc ∧
        t.causeInfo = s.causeInfo ∧ (i ≠ .prn a → t.out = s.out))

/-- What PUSH and CALL leave unchanged: every register but `R[7]`, `FL`, every byte of memory but the
one at the address the push stores to; and, unless they stop the run, `CAUSE*` and the output trace.
One that stops the run stores nothing. -/
def Obligations.FrameOfPushAndCall : Prop :=
  ∀ (s t : State) (a : Byte), ∀ i ∈ [Instr.push a, .call a],
    s.run = .running → exec i s = .next t →
      (∀ r : Fin 8, r ≠ 7 → t.reg r = s.reg r) ∧ t.fl = s.fl ∧
      (∀ x, x ≠ pushAddr s → t.byteAt x = s.byteAt x) ∧
      (t.run = .running → t.cause = s.cause ∧ t.causePc = s.causePc ∧
        t.causeInfo = s.causeInfo ∧ t.out = s.out) ∧
      (t.run ≠ .running → (∀ x, t.byteAt x = s.byteAt x) ∧ t.sp = s.sp)

/-- What POP and RET leave unchanged: every register but `R[7]` and, for POP, `R[a]`; `FL`; every
byte of memory (the popped cell keeps its value); and, unless they stop the run, `CAUSE*` and the
output trace. -/
def Obligations.FrameOfPopAndRet : Prop :=
  ∀ (s t : State) (a : Byte), ∀ i ∈ [Instr.pop a, .ret],
    s.run = .running → exec i s = .next t →
      (∀ r : Fin 8, r ≠ 7 → (i = .pop a → r.val ≠ a.toNat) → t.reg r = s.reg r) ∧ t.fl = s.fl ∧
      (∀ x, t.byteAt x = s.byteAt x) ∧
      (t.run = .running → t.cause = s.cause ∧ t.causePc = s.causePc ∧
        t.causeInfo = s.causeInfo ∧ t.out = s.out)
end

