-- ==== Sys2Proof/Laws/Encoding.lean ====
section
/-! SUPPORT. What the lookup of an opcode byte and the reading of operand bytes can answer. -/

namespace Sys2Proof

theorem Mnemonic.mem_all (o : Mnemonic) : o ∈ Mnemonic.all := by cases o <;> decide

/-- A dispatch entry is one whose byte is the opcode byte. -/
theorem lookupOpcode_some {m : OpcodeMap} {b : Byte} {o : Mnemonic}
    (h : lookupOpcode m b = some o) : m o = b := by
  simpa using List.find?_some h

/-- A byte has no dispatch entry exactly when the map gives it to no mnemonic. -/
theorem lookupOpcode_none {m : OpcodeMap} {b : Byte} :
    lookupOpcode m b = none ↔ ∀ o, m o ≠ b := by
  simp [lookupOpcode, List.find?_eq_none, Mnemonic.mem_all]

theorem instrOf_mnemonic (o : Mnemonic) (a b : Byte) : (instrOf o a b).mnemonic = o := by
  cases o <;> rfl

theorem instrOf_operandBytes (o : Mnemonic) (a b : Byte) :
    (instrOf o a b).operandBytes = [a, b].take o.operandCount := by
  cases o <;> rfl

theorem Instr.operandBytes_length (i : Instr) :
    i.operandBytes.length = i.mnemonic.operandCount := by
  cases i <;> rfl

theorem Mnemonic.operandCount_le (o : Mnemonic) : o.operandCount ≤ 2 := by cases o <;> decide

/-- Everything the reading of operands can answer: the instruction with the bytes it took, or the
operand byte that is missing. -/
theorem decodeOperands_cases (o : Mnemonic) (bytes : List Byte) :
    (∃ a b rest, decodeOperands o bytes = .ok (instrOf o a b, rest) ∧
      bytes = [a, b].take o.operandCount ++ rest) ∨
    (bytes.length < o.operandCount ∧
      decodeOperands o bytes = .error (.missingOperand (bytes.length + 1))) := by
  rcases bytes with _ | ⟨x, _ | ⟨y, rest⟩⟩ <;> cases o <;>
    first
      | exact .inr ⟨by decide, rfl⟩
      | exact .inr ⟨by simp [Mnemonic.operandCount], rfl⟩
      | exact .inl ⟨0, 0, _, rfl, rfl⟩
      | exact .inl ⟨x, 0, _, rfl, rfl⟩
      | exact .inl ⟨x, y, _, rfl, rfl⟩

end Sys2Proof
end

