-- ==== Sys2Proof/Laws/Memory.lean ====
section
/-! SUPPORT. What reading and writing memory do (`20_memory.md` R31, R32), and that every memory
operation keeps the canonical form. -/

namespace Sys2Proof.Machine

@[simp] theorem memSize_eq : Config.memSize = 256 := rfl

@[simp] theorem maxOperands_eq : Config.maxOperands = 2 := rfl

@[simp] theorem Memory.read_nil (a : Nat) : Memory.read [] a = 0x00#8 := rfl

theorem Memory.read_cons (b : Nat) (w : Byte) (m : Memory) (a : Nat) :
    Memory.read ((b, w) :: m) a = if a = b then w else Memory.read m a := rfl

theorem Memory.mem_erase {m : Memory} {a : Nat} {c : Host.Cell} :
    c ∈ Memory.erase m a ↔ c ∈ m ∧ c.1 ≠ a := by
  simp [Memory.erase]

theorem Memory.mem_insert {m : Memory} {a : Nat} {v : Byte} {c : Host.Cell} :
    c ∈ Memory.insert m a v ↔ c = (a, v) ∨ c ∈ m := by
  induction m with
  | nil => simp [Memory.insert]
  | cons d m ih =>
    obtain ⟨b, w⟩ := d
    simp only [Memory.insert]
    split
    · simp
    · simp only [List.mem_cons, ih]; tauto

theorem Memory.read_erase (m : Memory) (a x : Nat) :
    Memory.read (Memory.erase m a) x = if x = a then 0x00#8 else Memory.read m x := by
  induction m with
  | nil => simp [Memory.erase]
  | cons d m ih =>
    obtain ⟨b, w⟩ := d
    unfold Memory.erase at ih ⊢
    by_cases hb : b = a
    · subst hb
      by_cases hx : x = b <;> simp_all [Memory.read_cons]
    · by_cases hx : x = b <;> simp_all [Memory.read_cons]

theorem Memory.read_insert {m : Memory} {a : Nat} (v : Byte) (h : ∀ c ∈ m, c.1 ≠ a) (x : Nat) :
    Memory.read (Memory.insert m a v) x = if x = a then v else Memory.read m x := by
  induction m with
  | nil => simp [Memory.insert, Memory.read_cons]
  | cons d m ih =>
    obtain ⟨b, w⟩ := d
    have hb : b ≠ a := h (b, w) (by simp)
    have ih := ih fun c hc => h c (by simp [hc])
    simp only [Memory.insert]
    split
    · simp [Memory.read_cons]
    · by_cases hx : x = b <;> simp_all [Memory.read_cons]

/-- A write gives its cell the value written and leaves every other cell alone. -/
theorem Memory.read_write (m : Memory) (a : Nat) (v : Byte) (x : Nat) :
    Memory.read (Memory.write m a v) x = if x = a then v else Memory.read m x := by
  unfold Memory.write
  split
  · simp_all [Memory.read_erase]
  · rw [Memory.read_insert v (fun c hc => (Memory.mem_erase.1 hc).2), Memory.read_erase]
    split <;> simp_all

/-- A string of writes gives byte `k` to the cell `a + k` and leaves every other cell alone. -/
theorem Memory.read_writeBytes (m : Memory) (a : Nat) (bytes : List Byte) (x : Nat) :
    Memory.read (Memory.writeBytes m a bytes) x =
      if h : a ≤ x ∧ x - a < bytes.length then bytes[x - a]'h.2 else Memory.read m x := by
  induction bytes generalizing m a with
  | nil => simp [Memory.writeBytes]
  | cons v rest ih =>
    simp only [Memory.writeBytes, ih, Memory.read_write]
    by_cases hxa : x = a
    · subst hxa; simp
    · by_cases h : a + 1 ≤ x ∧ x - (a + 1) < rest.length
      · have h' : a ≤ x ∧ x - a < (v :: rest).length := by simp; omega
        rw [dif_pos h, dif_pos h']
        have e : x - a = x - (a + 1) + 1 := by omega
        simp [e]
      · have h' : ¬(a ≤ x ∧ x - a < (v :: rest).length) := by simp; omega
        rw [dif_neg h, dif_neg h', if_neg hxa]

theorem Memory.wf_nil : Memory.wf [] := by simp [Memory.wf]

theorem Memory.wf_erase {m : Memory} (h : Memory.wf m) (a : Nat) : Memory.wf (Memory.erase m a) :=
  ⟨h.1.filter _, fun c hc => h.2 c (Memory.mem_erase.1 hc).1⟩

theorem Memory.wf_insert {m : Memory} (h : Memory.wf m) {a : Nat} (ha : a < 256) {v : Byte}
    (hv : v ≠ 0x00#8) (hm : ∀ c ∈ m, c.1 ≠ a) : Memory.wf (Memory.insert m a v) := by
  refine ⟨?_, fun c hc => ?_⟩
  · obtain ⟨hs, -⟩ := h
    induction m with
    | nil => simp [Memory.insert]
    | cons d m ih =>
      obtain ⟨b, w⟩ := d
      have hb : b ≠ a := hm (b, w) (by simp)
      obtain ⟨hbm, hs⟩ := List.pairwise_cons.1 hs
      simp only [Memory.insert]
      split
      · rename_i hab
        refine List.pairwise_cons.2 ⟨fun c hc => ?_, List.pairwise_cons.2 ⟨hbm, hs⟩⟩
        rcases List.mem_cons.1 hc with rfl | hc
        · exact hab
        · exact Nat.lt_trans hab (hbm c hc)
      · refine List.pairwise_cons.2 ⟨fun c hc => ?_, ih (fun c hc => hm c (by simp [hc])) hs⟩
        rcases Memory.mem_insert.1 hc with rfl | hc
        · show b < a; omega
        · exact hbm c hc
  · rcases Memory.mem_insert.1 hc with rfl | hc
    · exact ⟨ha, hv⟩
    · exact h.2 c hc

/-- A write inside the memory keeps the canonical form. -/
theorem Memory.wf_write {m : Memory} (h : Memory.wf m) {a : Nat} (ha : a < 256) (v : Byte) :
    Memory.wf (Memory.write m a v) := by
  unfold Memory.write
  split
  · exact Memory.wf_erase h a
  · rename_i hv
    exact Memory.wf_insert (Memory.wf_erase h a) ha hv fun c hc => (Memory.mem_erase.1 hc).2

/-- A string of writes inside the memory keeps the canonical form. -/
theorem Memory.wf_writeBytes {m : Memory} (h : Memory.wf m) {a : Nat} {bytes : List Byte}
    (ha : a + bytes.length ≤ 256) : Memory.wf (Memory.writeBytes m a bytes) := by
  induction bytes generalizing m a with
  | nil => exact h
  | cons v rest ih =>
    simp only [List.length_cons] at ha
    exact ih (Memory.wf_write h (by omega) v) (by omega)

end Sys2Proof.Machine
end

