-- ==== Sys2Proof/Laws/State.lean ====
section
/-! SUPPORT. One lemma per field of State and update, so that no later proof unfolds a record update;
then reading a register, `SP` and a byte of memory after each update, and the two ends of a run. -/

namespace Sys2Proof.Machine

variable (s : State)

@[simp] theorem State.setByte_mem (a : Nat) (v : Byte) :
    (s.setByte a v).mem = Memory.write s.mem a v := rfl
@[simp] theorem State.setByte_regs (a : Nat) (v : Byte) : (s.setByte a v).regs = s.regs := rfl
@[simp] theorem State.setByte_pc (a : Nat) (v : Byte) : (s.setByte a v).pc = s.pc := rfl
@[simp] theorem State.setByte_fl (a : Nat) (v : Byte) : (s.setByte a v).fl = s.fl := rfl
@[simp] theorem State.setByte_run (a : Nat) (v : Byte) : (s.setByte a v).run = s.run := rfl
@[simp] theorem State.setByte_cause (a : Nat) (v : Byte) : (s.setByte a v).cause = s.cause := rfl
@[simp] theorem State.setByte_causePc (a : Nat) (v : Byte) :
    (s.setByte a v).causePc = s.causePc := rfl
@[simp] theorem State.setByte_causeInfo (a : Nat) (v : Byte) :
    (s.setByte a v).causeInfo = s.causeInfo := rfl
@[simp] theorem State.setByte_out (a : Nat) (v : Byte) : (s.setByte a v).out = s.out := rfl

@[simp] theorem State.setReg_mem (r : Fin 8) (v : Byte) : (s.setReg r v).mem = s.mem := rfl
@[simp] theorem State.setReg_regs (r : Fin 8) (v : Byte) :
    (s.setReg r v).regs = s.regs.set r v := rfl
@[simp] theorem State.setReg_pc (r : Fin 8) (v : Byte) : (s.setReg r v).pc = s.pc := rfl
@[simp] theorem State.setReg_fl (r : Fin 8) (v : Byte) : (s.setReg r v).fl = s.fl := rfl
@[simp] theorem State.setReg_run (r : Fin 8) (v : Byte) : (s.setReg r v).run = s.run := rfl
@[simp] theorem State.setReg_cause (r : Fin 8) (v : Byte) : (s.setReg r v).cause = s.cause := rfl
@[simp] theorem State.setReg_causePc (r : Fin 8) (v : Byte) :
    (s.setReg r v).causePc = s.causePc := rfl
@[simp] theorem State.setReg_causeInfo (r : Fin 8) (v : Byte) :
    (s.setReg r v).causeInfo = s.causeInfo := rfl
@[simp] theorem State.setReg_out (r : Fin 8) (v : Byte) : (s.setReg r v).out = s.out := rfl

@[simp] theorem State.setSp_mem (v : Byte) : (s.setSp v).mem = s.mem := rfl
@[simp] theorem State.setSp_regs (v : Byte) : (s.setSp v).regs = s.regs.set Config.spIndex v := rfl
@[simp] theorem State.setSp_pc (v : Byte) : (s.setSp v).pc = s.pc := rfl
@[simp] theorem State.setSp_fl (v : Byte) : (s.setSp v).fl = s.fl := rfl
@[simp] theorem State.setSp_run (v : Byte) : (s.setSp v).run = s.run := rfl
@[simp] theorem State.setSp_cause (v : Byte) : (s.setSp v).cause = s.cause := rfl
@[simp] theorem State.setSp_causePc (v : Byte) : (s.setSp v).causePc = s.causePc := rfl
@[simp] theorem State.setSp_causeInfo (v : Byte) : (s.setSp v).causeInfo = s.causeInfo := rfl
@[simp] theorem State.setSp_out (v : Byte) : (s.setSp v).out = s.out := rfl

@[simp] theorem State.setFl_mem (v : Byte) : (s.setFl v).mem = s.mem := rfl
@[simp] theorem State.setFl_regs (v : Byte) : (s.setFl v).regs = s.regs := rfl
@[simp] theorem State.setFl_pc (v : Byte) : (s.setFl v).pc = s.pc := rfl
@[simp] theorem State.setFl_fl (v : Byte) : (s.setFl v).fl = v := rfl
@[simp] theorem State.setFl_run (v : Byte) : (s.setFl v).run = s.run := rfl
@[simp] theorem State.setFl_cause (v : Byte) : (s.setFl v).cause = s.cause := rfl
@[simp] theorem State.setFl_causePc (v : Byte) : (s.setFl v).causePc = s.causePc := rfl
@[simp] theorem State.setFl_causeInfo (v : Byte) : (s.setFl v).causeInfo = s.causeInfo := rfl
@[simp] theorem State.setFl_out (v : Byte) : (s.setFl v).out = s.out := rfl

@[simp] theorem State.setPc_mem (p : Pc) : (s.setPc p).mem = s.mem := rfl
@[simp] theorem State.setPc_regs (p : Pc) : (s.setPc p).regs = s.regs := rfl
@[simp] theorem State.setPc_pc (p : Pc) : (s.setPc p).pc = p := rfl
@[simp] theorem State.setPc_fl (p : Pc) : (s.setPc p).fl = s.fl := rfl
@[simp] theorem State.setPc_run (p : Pc) : (s.setPc p).run = s.run := rfl
@[simp] theorem State.setPc_cause (p : Pc) : (s.setPc p).cause = s.cause := rfl
@[simp] theorem State.setPc_causePc (p : Pc) : (s.setPc p).causePc = s.causePc := rfl
@[simp] theorem State.setPc_causeInfo (p : Pc) : (s.setPc p).causeInfo = s.causeInfo := rfl
@[simp] theorem State.setPc_out (p : Pc) : (s.setPc p).out = s.out := rfl

@[simp] theorem State.advance_mem (n : Nat) : (s.advance n).mem = s.mem := rfl
@[simp] theorem State.advance_regs (n : Nat) : (s.advance n).regs = s.regs := rfl
@[simp] theorem State.advance_pc (n : Nat) : (s.advance n).pc = s.nextPc n := rfl
@[simp] theorem State.advance_fl (n : Nat) : (s.advance n).fl = s.fl := rfl
@[simp] theorem State.advance_run (n : Nat) : (s.advance n).run = s.run := rfl
@[simp] theorem State.advance_cause (n : Nat) : (s.advance n).cause = s.cause := rfl
@[simp] theorem State.advance_causePc (n : Nat) : (s.advance n).causePc = s.causePc := rfl
@[simp] theorem State.advance_causeInfo (n : Nat) : (s.advance n).causeInfo = s.causeInfo := rfl
@[simp] theorem State.advance_out (n : Nat) : (s.advance n).out = s.out := rfl

@[simp] theorem State.emit_mem (e : OutEvent) : (s.emit e).mem = s.mem := rfl
@[simp] theorem State.emit_regs (e : OutEvent) : (s.emit e).regs = s.regs := rfl
@[simp] theorem State.emit_pc (e : OutEvent) : (s.emit e).pc = s.pc := rfl
@[simp] theorem State.emit_fl (e : OutEvent) : (s.emit e).fl = s.fl := rfl
@[simp] theorem State.emit_run (e : OutEvent) : (s.emit e).run = s.run := rfl
@[simp] theorem State.emit_cause (e : OutEvent) : (s.emit e).cause = s.cause := rfl
@[simp] theorem State.emit_causePc (e : OutEvent) : (s.emit e).causePc = s.causePc := rfl
@[simp] theorem State.emit_causeInfo (e : OutEvent) : (s.emit e).causeInfo = s.causeInfo := rfl
@[simp] theorem State.emit_out (e : OutEvent) : (s.emit e).out = s.out ++ [e] := rfl

@[simp] theorem State.record_mem (c : Cause) (i : Info) : (s.record c i).mem = s.mem := rfl
@[simp] theorem State.record_regs (c : Cause) (i : Info) : (s.record c i).regs = s.regs := rfl
@[simp] theorem State.record_pc (c : Cause) (i : Info) : (s.record c i).pc = s.pc := rfl
@[simp] theorem State.record_fl (c : Cause) (i : Info) : (s.record c i).fl = s.fl := rfl
@[simp] theorem State.record_run (c : Cause) (i : Info) : (s.record c i).run = s.run := rfl
@[simp] theorem State.record_cause (c : Cause) (i : Info) : (s.record c i).cause = c := rfl
@[simp] theorem State.record_causePc (c : Cause) (i : Info) : (s.record c i).causePc = s.pc := rfl
@[simp] theorem State.record_causeInfo (c : Cause) (i : Info) : (s.record c i).causeInfo = i := rfl
@[simp] theorem State.record_out (c : Cause) (i : Info) : (s.record c i).out = s.out := rfl

@[simp] theorem State.incSp_mem : (s.incSp).mem = s.mem := rfl
@[simp] theorem State.incSp_regs : (s.incSp).regs = s.regs.set Config.spIndex (s.sp + 1) := rfl
@[simp] theorem State.incSp_pc : (s.incSp).pc = s.pc := rfl
@[simp] theorem State.incSp_fl : (s.incSp).fl = s.fl := rfl
@[simp] theorem State.incSp_run : (s.incSp).run = s.run := rfl
@[simp] theorem State.incSp_cause : (s.incSp).cause = s.cause := rfl
@[simp] theorem State.incSp_causePc : (s.incSp).causePc = s.causePc := rfl
@[simp] theorem State.incSp_causeInfo : (s.incSp).causeInfo = s.causeInfo := rfl
@[simp] theorem State.incSp_out : (s.incSp).out = s.out := rfl

@[simp] theorem State.jumpTo_mem (v : Byte) : (s.jumpTo v).mem = s.mem := rfl
@[simp] theorem State.jumpTo_regs (v : Byte) : (s.jumpTo v).regs = s.regs := rfl
@[simp] theorem State.jumpTo_pc (v : Byte) : (s.jumpTo v).pc = zext9 v := rfl
@[simp] theorem State.jumpTo_fl (v : Byte) : (s.jumpTo v).fl = s.fl := rfl
@[simp] theorem State.jumpTo_run (v : Byte) : (s.jumpTo v).run = s.run := rfl
@[simp] theorem State.jumpTo_cause (v : Byte) : (s.jumpTo v).cause = s.cause := rfl
@[simp] theorem State.jumpTo_causePc (v : Byte) : (s.jumpTo v).causePc = s.causePc := rfl
@[simp] theorem State.jumpTo_causeInfo (v : Byte) : (s.jumpTo v).causeInfo = s.causeInfo := rfl
@[simp] theorem State.jumpTo_out (v : Byte) : (s.jumpTo v).out = s.out := rfl

@[simp] theorem State.push_mem (f : State → Byte) :
    (s.push f).mem = Memory.write s.mem (pushAddr s) (f (s.setSp (pushSp s))) := rfl
@[simp] theorem State.push_regs (f : State → Byte) :
    (s.push f).regs = s.regs.set Config.spIndex (pushSp s) := rfl
@[simp] theorem State.push_pc (f : State → Byte) : (s.push f).pc = s.pc := rfl
@[simp] theorem State.push_fl (f : State → Byte) : (s.push f).fl = s.fl := rfl
@[simp] theorem State.push_run (f : State → Byte) : (s.push f).run = s.run := rfl
@[simp] theorem State.push_cause (f : State → Byte) : (s.push f).cause = s.cause := rfl
@[simp] theorem State.push_causePc (f : State → Byte) : (s.push f).causePc = s.causePc := rfl
@[simp] theorem State.push_causeInfo (f : State → Byte) : (s.push f).causeInfo = s.causeInfo := rfl
@[simp] theorem State.push_out (f : State → Byte) : (s.push f).out = s.out := rfl

@[simp] theorem takeFault_mem (c : Cause) (i : Info) : (takeFault c i s).mem = s.mem := rfl
@[simp] theorem takeFault_regs (c : Cause) (i : Info) : (takeFault c i s).regs = s.regs := rfl
@[simp] theorem takeFault_pc (c : Cause) (i : Info) : (takeFault c i s).pc = s.pc := rfl
@[simp] theorem takeFault_fl (c : Cause) (i : Info) : (takeFault c i s).fl = s.fl := rfl
@[simp] theorem takeFault_run (c : Cause) (i : Info) : (takeFault c i s).run = .faulted := rfl
@[simp] theorem takeFault_cause (c : Cause) (i : Info) : (takeFault c i s).cause = c := rfl
@[simp] theorem takeFault_causePc (c : Cause) (i : Info) : (takeFault c i s).causePc = s.pc := rfl
@[simp] theorem takeFault_causeInfo (c : Cause) (i : Info) : (takeFault c i s).causeInfo = i := rfl
@[simp] theorem takeFault_out (c : Cause) (i : Info) :
    (takeFault c i s).out = s.out ++ [.diag c s.pc i] := rfl

@[simp] theorem takeHalt_mem (c : Cause) (i : Info) (n : Nat) :
    (takeHalt c i n s).mem = s.mem := rfl
@[simp] theorem takeHalt_regs (c : Cause) (i : Info) (n : Nat) :
    (takeHalt c i n s).regs = s.regs := rfl
@[simp] theorem takeHalt_pc (c : Cause) (i : Info) (n : Nat) :
    (takeHalt c i n s).pc = s.nextPc n := rfl
@[simp] theorem takeHalt_fl (c : Cause) (i : Info) (n : Nat) : (takeHalt c i n s).fl = s.fl := rfl
@[simp] theorem takeHalt_run (c : Cause) (i : Info) (n : Nat) :
    (takeHalt c i n s).run = .halted := rfl
@[simp] theorem takeHalt_cause (c : Cause) (i : Info) (n : Nat) :
    (takeHalt c i n s).cause = c := rfl
@[simp] theorem takeHalt_causePc (c : Cause) (i : Info) (n : Nat) :
    (takeHalt c i n s).causePc = s.pc := rfl
@[simp] theorem takeHalt_causeInfo (c : Cause) (i : Info) (n : Nat) :
    (takeHalt c i n s).causeInfo = i := rfl
@[simp] theorem takeHalt_out (c : Cause) (i : Info) (n : Nat) :
    (takeHalt c i n s).out = s.out := rfl

@[simp] theorem takeZeroDivisorHalt_mem (b : Byte) (n : Nat) :
    (takeZeroDivisorHalt b n s).mem = s.mem := rfl
@[simp] theorem takeZeroDivisorHalt_regs (b : Byte) (n : Nat) :
    (takeZeroDivisorHalt b n s).regs = s.regs := rfl
@[simp] theorem takeZeroDivisorHalt_pc (b : Byte) (n : Nat) :
    (takeZeroDivisorHalt b n s).pc = s.nextPc n := rfl
@[simp] theorem takeZeroDivisorHalt_fl (b : Byte) (n : Nat) :
    (takeZeroDivisorHalt b n s).fl = s.fl := rfl
@[simp] theorem takeZeroDivisorHalt_run (b : Byte) (n : Nat) :
    (takeZeroDivisorHalt b n s).run = .halted := rfl
@[simp] theorem takeZeroDivisorHalt_cause (b : Byte) (n : Nat) :
    (takeZeroDivisorHalt b n s).cause = .divideByZero := rfl
@[simp] theorem takeZeroDivisorHalt_causePc (b : Byte) (n : Nat) :
    (takeZeroDivisorHalt b n s).causePc = s.pc := rfl
@[simp] theorem takeZeroDivisorHalt_causeInfo (b : Byte) (n : Nat) :
    (takeZeroDivisorHalt b n s).causeInfo = zext9 b := rfl
@[simp] theorem takeZeroDivisorHalt_out (b : Byte) (n : Nat) :
    (takeZeroDivisorHalt b n s).out = s.out ++ [.diag .divideByZero s.pc (zext9 b)] := rfl

/-! ## Reading after an update -/

theorem State.reg_def (r : Fin 8) : s.reg r = s.regs[r] := rfl

theorem State.sp_def : s.sp = s.reg 7 := rfl

theorem State.byteAt_def (a : Nat) : s.byteAt a = Memory.read s.mem a := rfl

theorem State.reg_setReg (q r : Fin 8) (v : Byte) :
    (s.setReg r v).reg q = if q = r then v else s.reg q := by
  obtain ⟨q, hq⟩ := q
  obtain ⟨r, hr⟩ := r
  by_cases h : q = r
  · subst h; simp [State.reg]
  · simp [State.reg, h, Vector.getElem_set_ne, Ne.symm h]

theorem State.reg_setSp (q : Fin 8) (v : Byte) :
    (s.setSp v).reg q = if q = 7 then v else s.reg q := s.reg_setReg q 7 v

theorem State.reg_incSp (q : Fin 8) :
    s.incSp.reg q = if q = 7 then s.sp + 1 else s.reg q := s.reg_setReg q 7 _

theorem State.reg_push (f : State → Byte) (q : Fin 8) :
    (s.push f).reg q = if q = 7 then s.sp - 1 else s.reg q := s.reg_setReg q 7 _

theorem State.byteAt_setByte (a : Nat) (v : Byte) (x : Nat) :
    (s.setByte a v).byteAt x = if x = a then v else s.byteAt x := Memory.read_write s.mem a v x

theorem State.byteAt_push (f : State → Byte) (x : Nat) :
    (s.push f).byteAt x = if x = pushAddr s then f (s.setSp (pushSp s)) else s.byteAt x :=
  Memory.read_write _ _ _ x

@[simp] theorem State.reg_setByte (a : Nat) (v : Byte) (q : Fin 8) : (s.setByte a v).reg q = s.reg q := rfl
@[simp] theorem State.sp_setByte (a : Nat) (v : Byte) : (s.setByte a v).sp = s.sp := rfl
@[simp] theorem State.byteAt_setReg (r : Fin 8) (v : Byte) (x : Nat) : (s.setReg r v).byteAt x = s.byteAt x := rfl
@[simp] theorem State.byteAt_setSp (v : Byte) (x : Nat) : (s.setSp v).byteAt x = s.byteAt x := rfl
@[simp] theorem State.byteAt_setFl (v : Byte) (x : Nat) : (s.setFl v).byteAt x = s.byteAt x := rfl
@[simp] theorem State.reg_setFl (v : Byte) (q : Fin 8) : (s.setFl v).reg q = s.reg q := rfl
@[simp] theorem State.sp_setFl (v : Byte) : (s.setFl v).sp = s.sp := rfl
@[simp] theorem State.byteAt_setPc (p : Pc) (x : Nat) : (s.setPc p).byteAt x = s.byteAt x := rfl
@[simp] theorem State.reg_setPc (p : Pc) (q : Fin 8) : (s.setPc p).reg q = s.reg q := rfl
@[simp] theorem State.sp_setPc (p : Pc) : (s.setPc p).sp = s.sp := rfl
@[simp] theorem State.byteAt_advance (n : Nat) (x : Nat) : (s.advance n).byteAt x = s.byteAt x := rfl
@[simp] theorem State.reg_advance (n : Nat) (q : Fin 8) : (s.advance n).reg q = s.reg q := rfl
@[simp] theorem State.sp_advance (n : Nat) : (s.advance n).sp = s.sp := rfl
@[simp] theorem State.byteAt_emit (e : OutEvent) (x : Nat) : (s.emit e).byteAt x = s.byteAt x := rfl
@[simp] theorem State.reg_emit (e : OutEvent) (q : Fin 8) : (s.emit e).reg q = s.reg q := rfl
@[simp] theorem State.sp_emit (e : OutEvent) : (s.emit e).sp = s.sp := rfl
@[simp] theorem State.byteAt_record (c : Cause) (i : Info) (x : Nat) : (s.record c i).byteAt x = s.byteAt x := rfl
@[simp] theorem State.reg_record (c : Cause) (i : Info) (q : Fin 8) : (s.record c i).reg q = s.reg q := rfl
@[simp] theorem State.sp_record (c : Cause) (i : Info) : (s.record c i).sp = s.sp := rfl
@[simp] theorem State.byteAt_incSp (x : Nat) : (s.incSp).byteAt x = s.byteAt x := rfl
@[simp] theorem State.byteAt_jumpTo (v : Byte) (x : Nat) : (s.jumpTo v).byteAt x = s.byteAt x := rfl
@[simp] theorem State.reg_jumpTo (v : Byte) (q : Fin 8) : (s.jumpTo v).reg q = s.reg q := rfl
@[simp] theorem State.sp_jumpTo (v : Byte) : (s.jumpTo v).sp = s.sp := rfl
@[simp] theorem byteAt_takeFault (c : Cause) (i : Info) (x : Nat) :
    (takeFault c i s).byteAt x = s.byteAt x := rfl
@[simp] theorem reg_takeFault (c : Cause) (i : Info) (q : Fin 8) :
    (takeFault c i s).reg q = s.reg q := rfl
@[simp] theorem byteAt_takeHalt (c : Cause) (i : Info) (n : Nat) (x : Nat) :
    (takeHalt c i n s).byteAt x = s.byteAt x := rfl
@[simp] theorem reg_takeHalt (c : Cause) (i : Info) (n : Nat) (q : Fin 8) :
    (takeHalt c i n s).reg q = s.reg q := rfl
@[simp] theorem byteAt_takeZeroDivisorHalt (b : Byte) (n : Nat) (x : Nat) :
    (takeZeroDivisorHalt b n s).byteAt x = s.byteAt x := rfl
@[simp] theorem reg_takeZeroDivisorHalt (b : Byte) (n : Nat) (q : Fin 8) :
    (takeZeroDivisorHalt b n s).reg q = s.reg q := rfl

theorem pushAddr_lt : pushAddr s < 256 := (pushSp s).isLt

theorem popAddr_lt : popAddr s < 256 := s.sp.isLt

end Sys2Proof.Machine
end

