-- ==== Sys2Proof/Laws/Exec.lean ====
section
/-! SUPPORT. What the shared operations of the meanings can answer, and from that, said once, what
executing an instruction can do. Later proofs cite these and do not unfold the meanings. -/

namespace Sys2Proof.Machine

/-! ## Register operands -/

theorem regOperand_of_lt {b : Byte} (h : b.toNat < 8) : regOperand b = some ⟨b.toNat, h⟩ := by
  simp [regOperand, h]

theorem regOperand_of_ge {b : Byte} (h : 7 < b.toNat) : regOperand b = none := by
  simp [regOperand]; omega

/-- A register operand that names a register is used. -/
theorem withReg_of_lt {b : Byte} (h : b.toNat < 8) (s : State) (go : Fin 8 → Result) :
    withReg b s go = go ⟨b.toNat, h⟩ := by
  simp [withReg, regOperand_of_lt h]

/-- A register operand above 7 raises OutOfRangeRegister. -/
theorem withReg_of_ge {b : Byte} (h : 7 < b.toNat) (s : State) (go : Fin 8 → Result) :
    withReg b s go = .next (takeFault .outOfRangeRegister (zext9 b) s) := by
  simp [withReg, regOperand_of_ge h, raise]

theorem withRegs_of_lt {a b : Byte} (ha : a.toNat < 8) (hb : b.toNat < 8) (s : State)
    (go : Fin 8 → Fin 8 → Result) :
    withRegs a b s go = go ⟨a.toNat, ha⟩ ⟨b.toNat, hb⟩ := by
  simp [withRegs, withReg_of_lt ha, withReg_of_lt hb]

/-- Everything the check of a register operand can answer. -/
theorem withReg_cases {b : Byte} {s t : State} {go : Fin 8 → Result}
    (h : withReg b s go = .next t) :
    (7 < b.toNat ∧ t = takeFault .outOfRangeRegister (zext9 b) s) ∨
    ∃ hb : b.toNat < 8, go ⟨b.toNat, hb⟩ = .next t := by
  rcases Nat.lt_or_ge 7 b.toNat with hb | hb
  · rw [withReg_of_ge hb] at h
    exact .inl ⟨hb, by injection h with h; exact h.symm⟩
  · rw [withReg_of_lt (by omega)] at h
    exact .inr ⟨by omega, h⟩

/-- Everything the check of two register operands can answer. -/
theorem withRegs_cases {a b : Byte} {s t : State} {go : Fin 8 → Fin 8 → Result}
    (h : withRegs a b s go = .next t) :
    (∃ c ∈ [a, b], 7 < c.toNat ∧ t = takeFault .outOfRangeRegister (zext9 c) s) ∨
    ∃ (ha : a.toNat < 8) (hb : b.toNat < 8), go ⟨a.toNat, ha⟩ ⟨b.toNat, hb⟩ = .next t := by
  rcases withReg_cases h with ⟨ha, ht⟩ | ⟨ha, h⟩
  · exact .inl ⟨a, by simp, ha, ht⟩
  rcases withReg_cases h with ⟨hb, ht⟩ | ⟨hb, h⟩
  · exact .inl ⟨b, by simp, hb, ht⟩
  · exact .inr ⟨ha, hb, h⟩

/-! ## The ALU and the stack -/

/-- What the ALU writes is the exact result modulo 256 (R101). -/
theorem alu_toInt (op : AluOp) (x y : Byte) :
    ((alu op x y).toNat : Int) = aluExact op x.toNat y.toNat % 256 := by
  rw [alu, BitVec.toNat_ofInt]; omega

/-- A two-operand ALU instruction with good operands. -/
theorem aluTwo_of_lt (op : AluOp) {a b : Byte} (ha : a.toNat < 8) (hb : b.toNat < 8) (s : State) :
    aluTwo op a b s = .next ((s.setReg ⟨a.toNat, ha⟩
      (alu op (s.reg ⟨a.toNat, ha⟩) (s.reg ⟨b.toNat, hb⟩))).advance 2) :=
  withRegs_of_lt ha hb _ _

/-- DIV and MOD with good operands: the zero-divisor halt, or the result. -/
theorem aluDivide_of_lt (op : AluOp) {a b : Byte} (ha : a.toNat < 8) (hb : b.toNat < 8)
    (s : State) :
    aluDivide op a b s =
      if s.reg ⟨b.toNat, hb⟩ = 0x00#8 then .next (takeZeroDivisorHalt b 2 s)
      else .next ((s.setReg ⟨a.toNat, ha⟩
        (alu op (s.reg ⟨a.toNat, ha⟩) (s.reg ⟨b.toNat, hb⟩))).advance 2) :=
  withRegs_of_lt ha hb _ _

/-- The address of a push as a number (R120). -/
theorem pushAddr_eq (s : State) : pushAddr s = (s.sp.toNat + 255) % 256 := by
  simp [pushAddr, pushSp, BitVec.toNat_sub]; omega

/-- The address after an instruction, where the 9-bit sum does not wrap (R76). -/
theorem nextPc_toNat {s : State} {n : Nat} (h : s.pc.toNat + n < 511) :
    (s.nextPc n).toNat = s.pc.toNat + n + 1 := by
  simp [State.nextPc]; omega

/-! ## What executing an instruction can do -/

/-- What holds of the next state of an instruction that neither faults nor halts. -/
structure Completed (i : Instr) (s t : State) : Prop where
  run : t.run = s.run
  cause : t.cause = s.cause
  causePc : t.causePc = s.causePc
  causeInfo : t.causeInfo = s.causeInfo
  /-- only PRN hands an event to the sink -/
  out : t.out = s.out ∨ ∃ a r, i = .prn a ∧ t.out = s.out ++ [.out (s.reg r)]
  /-- only CMP writes the flags -/
  fl : t.fl = s.fl ∨ ∃ a b ra rb, i = .cmp a b ∧ t.fl = compareFlags (s.reg ra) (s.reg rb)
  /-- only PUSH and CALL write memory, at the address a push stores to -/
  mem : t.mem = s.mem ∨
    ∃ a v, (i = .push a ∨ i = .call a) ∧ t.mem = Memory.write s.mem (pushAddr s) v
  /-- past the instruction, or to an address of 8 bits -/
  pc : t.pc = s.nextPc i.mnemonic.operandCount ∨
    (i.mnemonic.controlsPc = true ∧ ∃ v : Byte, t.pc = zext9 v)

/-- Everything the execution of an instruction can answer: a fault of a register operand, the fault
of CALL's return address, the halt of HLT, the halt of a zero divisor, or completion. -/
theorem exec_cases {i : Instr} {s t : State} (h : exec i s = .next t) :
    (∃ b ∈ i.registerOperands, 7 < b.toNat ∧ t = takeFault .outOfRangeRegister (zext9 b) s) ∨
    (∃ a, i = .call a ∧ a.toNat < 8 ∧ 255 < (s.nextPc 1).toNat ∧
      t = takeFault .outOfRangeAddress (s.nextPc 1) s) ∨
    (i = .hlt ∧ t = takeHalt .haltInstruction 0 0 s) ∨
    (∃ (a b : Byte) (hb : b.toNat < 8), (i = .div a b ∨ i = .mod a b) ∧
      s.reg ⟨b.toNat, hb⟩ = 0x00#8 ∧ t = takeZeroDivisorHalt b 2 s) ∨
    Completed i s t := by
  cases i with
  | hlt =>
    injection h with h
    exact .inr <| .inr <| .inl ⟨rfl, h.symm⟩
  | ret =>
    injection h with h; subst h
    refine .inr <| .inr <| .inr <| .inr ⟨rfl, rfl, rfl, rfl, .inl rfl, .inl rfl, .inl rfl, ?_⟩
    exact .inr ⟨rfl, _, rfl⟩
  | ldi a b | prn a | not a | pop a =>
    rcases withReg_cases h with ⟨hb, ht⟩ | ⟨hb, h⟩
    · exact .inl ⟨a, by simp [Instr.registerOperands], hb, ht⟩
    · injection h with h; subst h
      refine .inr <| .inr <| .inr <| .inr ⟨rfl, rfl, rfl, rfl, ?_, .inl rfl, .inl rfl, .inl rfl⟩
      first
        | exact .inl rfl
        | exact .inr ⟨_, _, rfl, rfl⟩
  | push a =>
    rcases withReg_cases h with ⟨hb, ht⟩ | ⟨hb, h⟩
    · exact .inl ⟨a, by simp [Instr.registerOperands], hb, ht⟩
    · injection h with h; subst h
      exact .inr <| .inr <| .inr <| .inr ⟨rfl, rfl, rfl, rfl, .inl rfl, .inl rfl,
        .inr ⟨a, _, .inl rfl, rfl⟩, .inl rfl⟩
  | call a =>
    rcases withReg_cases h with ⟨hb, ht⟩ | ⟨hb, h⟩
    · exact .inl ⟨a, by simp [Instr.registerOperands], hb, ht⟩
    · split at h <;> injection h with h <;> subst h
      · exact .inr <| .inl ⟨a, rfl, hb, by assumption, rfl⟩
      · exact .inr <| .inr <| .inr <| .inr ⟨rfl, rfl, rfl, rfl, .inl rfl, .inl rfl,
          .inr ⟨a, _, .inr rfl, rfl⟩, .inr ⟨rfl, _, rfl⟩⟩
  | jmp a =>
    rcases withReg_cases h with ⟨hb, ht⟩ | ⟨hb, h⟩
    · exact .inl ⟨a, by simp [Instr.registerOperands], hb, ht⟩
    · injection h with h; subst h
      exact .inr <| .inr <| .inr <| .inr ⟨rfl, rfl, rfl, rfl, .inl rfl, .inl rfl, .inl rfl,
        .inr ⟨rfl, _, rfl⟩⟩
  | jeq a | jne a =>
    rcases withReg_cases h with ⟨hb, ht⟩ | ⟨hb, h⟩
    · exact .inl ⟨a, by simp [Instr.registerOperands], hb, ht⟩
    · injection h with h; subst h
      refine .inr <| .inr <| .inr <| .inr ?_
      split <;> refine ⟨rfl, rfl, rfl, rfl, .inl rfl, .inl rfl, .inl rfl, ?_⟩ <;>
        first
          | exact .inl rfl
          | exact .inr ⟨rfl, _, rfl⟩
  | cmp a b =>
    rcases withRegs_cases h with hf | ⟨ha, hb, h⟩
    · exact .inl hf
    · injection h with h; subst h
      exact .inr <| .inr <| .inr <| .inr ⟨rfl, rfl, rfl, rfl, .inl rfl,
        .inr ⟨a, b, _, _, rfl, rfl⟩, .inl rfl, .inl rfl⟩
  | div a b | mod a b =>
    rcases withRegs_cases h with hf | ⟨ha, hb, h⟩
    · exact .inl hf
    · split at h <;> injection h with h <;> subst h
      · exact .inr <| .inr <| .inr <| .inl ⟨a, b, hb, by simp, by assumption, rfl⟩
      · exact .inr <| .inr <| .inr <| .inr
          ⟨rfl, rfl, rfl, rfl, .inl rfl, .inl rfl, .inl rfl, .inl rfl⟩
  | add a b | sub a b | mul a b | and a b | or a b | xor a b | shl a b | shr a b =>
    rcases withRegs_cases h with hf | ⟨ha, hb, h⟩
    · exact .inl hf
    · injection h with h; subst h
      exact .inr <| .inr <| .inr <| .inr
        ⟨rfl, rfl, rfl, rfl, .inl rfl, .inl rfl, .inl rfl, .inl rfl⟩

end Sys2Proof.Machine
end

