-- ==== Sys2Proof/Laws/PerInstr.lean ====
section
/-! SUPPORT. A fact of every instruction as syntax, constructor by constructor: the shape of its
encoding under the default opcode map (`30_encoding.md` R50, R51, R55). -/

namespace Sys2Proof.Laws.EncodingShape

/-- The encoding is `1 + n` bytes, at most three; the count field of its opcode byte is `n` and its
bit 4 says whether the instruction controls `PC`. -/
def Statement (i : Instr) : Prop :=
  (encode i).length = 1 + i.mnemonic.operandCount ∧ (encode i).length ≤ 3 ∧
  opcodeCount (defaultOpcodeMap i.mnemonic) = i.operandBytes.length ∧
  opcodeControl (defaultOpcodeMap i.mnemonic) = i.mnemonic.controlsPc

/-- The two fields of the opcode byte of each mnemonic. -/
theorem fields (o : Mnemonic) : opcodeCount (defaultOpcodeMap o) = o.operandCount ∧
    opcodeControl (defaultOpcodeMap o) = o.controlsPc := by
  cases o <;> decide

theorem hlt : Statement .hlt :=
  ⟨rfl, by simp [encode, encodeWith, Instr.operandBytes], (fields .hlt).1, (fields .hlt).2⟩
theorem ldi (a imm : Byte) : Statement (.ldi a imm) :=
  ⟨rfl, by simp [encode, encodeWith, Instr.operandBytes], (fields .ldi).1, (fields .ldi).2⟩
theorem prn (a : Byte) : Statement (.prn a) :=
  ⟨rfl, by simp [encode, encodeWith, Instr.operandBytes], (fields .prn).1, (fields .prn).2⟩
theorem add (a b : Byte) : Statement (.add a b) :=
  ⟨rfl, by simp [encode, encodeWith, Instr.operandBytes], (fields .add).1, (fields .add).2⟩
theorem sub (a b : Byte) : Statement (.sub a b) :=
  ⟨rfl, by simp [encode, encodeWith, Instr.operandBytes], (fields .sub).1, (fields .sub).2⟩
theorem mul (a b : Byte) : Statement (.mul a b) :=
  ⟨rfl, by simp [encode, encodeWith, Instr.operandBytes], (fields .mul).1, (fields .mul).2⟩
theorem div (a b : Byte) : Statement (.div a b) :=
  ⟨rfl, by simp [encode, encodeWith, Instr.operandBytes], (fields .div).1, (fields .div).2⟩
theorem mod (a b : Byte) : Statement (.mod a b) :=
  ⟨rfl, by simp [encode, encodeWith, Instr.operandBytes], (fields .mod).1, (fields .mod).2⟩
theorem and (a b : Byte) : Statement (.and a b) :=
  ⟨rfl, by simp [encode, encodeWith, Instr.operandBytes], (fields .and).1, (fields .and).2⟩
theorem or (a b : Byte) : Statement (.or a b) :=
  ⟨rfl, by simp [encode, encodeWith, Instr.operandBytes], (fields .or).1, (fields .or).2⟩
theorem xor (a b : Byte) : Statement (.xor a b) :=
  ⟨rfl, by simp [encode, encodeWith, Instr.operandBytes], (fields .xor).1, (fields .xor).2⟩
theorem not (a : Byte) : Statement (.not a) :=
  ⟨rfl, by simp [encode, encodeWith, Instr.operandBytes], (fields .not).1, (fields .not).2⟩
theorem shl (a b : Byte) : Statement (.shl a b) :=
  ⟨rfl, by simp [encode, encodeWith, Instr.operandBytes], (fields .shl).1, (fields .shl).2⟩
theorem shr (a b : Byte) : Statement (.shr a b) :=
  ⟨rfl, by simp [encode, encodeWith, Instr.operandBytes], (fields .shr).1, (fields .shr).2⟩
theorem push (a : Byte) : Statement (.push a) :=
  ⟨rfl, by simp [encode, encodeWith, Instr.operandBytes], (fields .push).1, (fields .push).2⟩
theorem pop (a : Byte) : Statement (.pop a) :=
  ⟨rfl, by simp [encode, encodeWith, Instr.operandBytes], (fields .pop).1, (fields .pop).2⟩
theorem call (a : Byte) : Statement (.call a) :=
  ⟨rfl, by simp [encode, encodeWith, Instr.operandBytes], (fields .call).1, (fields .call).2⟩
theorem ret : Statement .ret :=
  ⟨rfl, by simp [encode, encodeWith, Instr.operandBytes], (fields .ret).1, (fields .ret).2⟩
theorem cmp (a b : Byte) : Statement (.cmp a b) :=
  ⟨rfl, by simp [encode, encodeWith, Instr.operandBytes], (fields .cmp).1, (fields .cmp).2⟩
theorem jmp (a : Byte) : Statement (.jmp a) :=
  ⟨rfl, by simp [encode, encodeWith, Instr.operandBytes], (fields .jmp).1, (fields .jmp).2⟩
theorem jeq (a : Byte) : Statement (.jeq a) :=
  ⟨rfl, by simp [encode, encodeWith, Instr.operandBytes], (fields .jeq).1, (fields .jeq).2⟩
theorem jne (a : Byte) : Statement (.jne a) :=
  ⟨rfl, by simp [encode, encodeWith, Instr.operandBytes], (fields .jne).1, (fields .jne).2⟩

end Sys2Proof.Laws.EncodingShape
end

