-- ==== Sys2Proof/Laws/Step.lean ====
section
/-! SUPPORT. What a step and an event of the host can do, and what is known of fetched bytes. -/

namespace Sys2Proof.Machine

/-- Everything a step can do: nothing, in a state that is not running; the fault of a fetch or a
decode; or the execution of the decoded instruction. -/
theorem stepWith_cases {m : OpcodeMap} {s t : State} (h : stepWith m s = .next t) :
    (s.run ≠ .running ∧ t = s) ∨
    (s.run = .running ∧ ∃ e, decodeWith m (fetchBytes s) = .error e ∧ t = takeDecodeFault e s) ∨
    (s.run = .running ∧ ∃ i rest, decodeWith m (fetchBytes s) = .ok (i, rest) ∧
      exec i s = .next t) := by
  unfold stepWith at h
  cases hr : s.run <;> rw [hr] at h
  case running =>
    cases hd : decodeWith m (fetchBytes s) with
    | error e =>
      simp only [hd] at h; injection h with h
      exact .inr <| .inl ⟨rfl, e, rfl, h.symm⟩
    | ok p =>
      simp only [hd] at h
      exact .inr <| .inr ⟨rfl, p.1, p.2, rfl, h⟩
  all_goals
    injection h with h
    exact .inl ⟨by simp, h.symm⟩

/-- Everything an event of the host can do. -/
theorem hostEvent_cases {e : HostEvent} {s t : State} (h : hostEvent e s = .next t) :
    (e = .reset ∧ t = State.reset) ∨ t = s ∨
    (∃ bytes, e = .load bytes ∧ s.run = .ready ∧ bytes.length ≤ 256 ∧
      t = { s with mem := Memory.writeBytes s.mem 0 bytes }) ∨
    (e = .start ∧ s.run = .ready ∧ t = { s with run := .running }) := by
  cases e with
  | reset => injection h with h; exact .inl ⟨rfl, h.symm⟩
  | load bytes =>
    simp only [hostEvent, hostLoad] at h
    split at h
    · split at h <;> injection h with h <;> subst h
      · exact .inr <| .inr <| .inl ⟨bytes, rfl, by assumption, by assumption, rfl⟩
      · exact .inr <| .inl rfl
    · cases h
  | start =>
    simp only [hostEvent, hostStart] at h
    split at h <;> injection h with h <;> subst h
    · exact .inr <| .inr <| .inr ⟨rfl, by assumption, rfl⟩
    · exact .inr <| .inl rfl

/-- The bytes read from an address on are the bytes of the memory there, as far as they exist. -/
theorem bytesFrom_getElem? (s : State) (addr count k : Nat) :
    (bytesFrom s addr count)[k]? =
      if k < count ∧ addr + k < 256 then some (s.byteAt (addr + k)) else none := by
  induction count generalizing addr k with
  | zero => simp [bytesFrom]
  | succ n ih =>
    simp only [bytesFrom, memSize_eq]
    split
    · cases k with
      | zero => simp_all
      | succ k =>
        simp only [List.getElem?_cons_succ, ih]
        have e : addr + 1 + k = addr + (k + 1) := by omega
        simp [e]
    · simp; omega

theorem bytesFrom_length (s : State) (addr count : Nat) :
    (bytesFrom s addr count).length = min count (256 - addr) := by
  induction count generalizing addr with
  | zero => simp [bytesFrom]
  | succ n ih =>
    simp only [bytesFrom, memSize_eq]
    split
    · simp [ih]; omega
    · simp; omega

theorem fetchBytes_length (s : State) : (fetchBytes s).length = min 3 (256 - s.pc.toNat) :=
  bytesFrom_length _ _ _

/-- A decoded instruction lies inside the memory with all its bytes. -/
theorem decodeWith_fetch_ok {m : OpcodeMap} {s : State} {i : Instr} {rest : List Byte}
    (h : decodeWith m (fetchBytes s) = .ok (i, rest)) :
    s.pc.toNat + i.mnemonic.operandCount < 256 := by
  have hl := fetchBytes_length s
  cases hf : fetchBytes s with
  | nil => rw [hf] at h; cases h
  | cons ir bytes =>
    rw [hf] at h hl
    cases ho : lookupOpcode m ir with
    | none => simp [decodeWith, ho] at h
    | some o =>
      simp only [decodeWith, ho] at h
      rcases decodeOperands_cases o bytes with ⟨a, b, rest', hd, hb⟩ | ⟨-, hd⟩
      · rw [hd] at h; injection h with h; injection h with h h'; subst h
        rw [instrOf_mnemonic]
        have hc := congrArg List.length hb
        have ho := Mnemonic.operandCount_le o
        simp at hc hl
        omega
      · rw [hd] at h; cases h

/-- Everything the decode of fetched bytes can reject: no byte at `PC`, an unrecognised opcode, or
an operand byte whose address is 256. -/
theorem decodeWith_fetch_error {m : OpcodeMap} {s : State} {e : DecodeError}
    (h : decodeWith m (fetchBytes s) = .error e) :
    (e = .noOpcode ∧ 256 ≤ s.pc.toNat) ∨
    (s.pc.toNat < 256 ∧ lookupOpcode m (s.byteAt s.pc.toNat) = none ∧
      e = .unrecognizedOpcode (s.byteAt s.pc.toNat)) ∨
    (∃ k, e = .missingOperand k ∧ s.pc.toNat + k = 256) := by
  have hl := fetchBytes_length s
  cases hf : fetchBytes s with
  | nil =>
    rw [hf] at h hl; injection h with h; simp at hl
    exact .inl ⟨h.symm, by omega⟩
  | cons ir bytes =>
    have h0 := bytesFrom_getElem? s s.pc.toNat 3 0
    rw [show bytesFrom s s.pc.toNat 3 = ir :: bytes from hf] at h0
    have hp : s.pc.toNat < 256 := by
      rw [hf] at hl; simp at hl; omega
    simp [hp] at h0; subst h0
    rw [hf] at h hl
    cases ho : lookupOpcode m (s.byteAt s.pc.toNat) with
    | none =>
      simp only [decodeWith, ho] at h; injection h with h
      exact .inr <| .inl ⟨hp, rfl, h.symm⟩
    | some o =>
      simp only [decodeWith, ho] at h
      rcases decodeOperands_cases o bytes with ⟨a, b, rest', hd, -⟩ | ⟨hk, hd⟩
      · rw [hd] at h; cases h
      · rw [hd] at h; injection h with h
        have ho := Mnemonic.operandCount_le o
        simp at hl
        exact .inr <| .inr ⟨_, h.symm, by omega⟩

/-- What is fetched depends on memory and `PC` only. -/
theorem fetchBytes_congr {s t : State} (hm : s.mem = t.mem) (hp : s.pc = t.pc) :
    fetchBytes s = fetchBytes t := by
  have h : ∀ addr count, bytesFrom s addr count = bytesFrom t addr count := by
    intro addr count
    induction count generalizing addr with
    | zero => rfl
    | succ n ih => simp [bytesFrom, ih, State.byteAt, hm]
  simp [fetchBytes, h, hp]

end Sys2Proof.Machine
end

