-- ==== Sys2Proof/Tests/Slice0.lean ====
section
/-! SUPPORT. The model's own tests. Expected values are those of `95_test_vectors.md` (the vector is
named) or of the rule named; then, for every statement with hypotheses, a concrete state and operands
that meet all of them together. -/

namespace Sys2Proof.Tests

open Sys2Proof.Machine

/-- A running machine, otherwise as after reset, with `bytes` from address `addr` on and `PC` there:
the state "before" of `95_test_vectors.md`. -/
def running (addr : Nat) (bytes : List Byte) : State :=
  { State.reset with
    mem := Memory.writeBytes [] addr bytes, pc := BitVec.ofNat 9 addr, run := .running }

/-- What one step of a state shows. -/
def see {α : Type} (s : State) (f : State → α) : Option α := (nextState (step s)).map f

/-- The record of a stop: `RUN`, `CAUSE`, `CAUSE_PC`, `CAUSE_INFO`, `PC` and the output trace. -/
structure Stop where
  run : RunState
  cause : BitVec 3
  causePc : Pc
  causeInfo : Info
  pc : Pc
  out : List OutEvent
  deriving DecidableEq, Repr

/-- The record a state holds. -/
def stop (s : State) : Stop := ⟨s.run, s.cause.code, s.causePc, s.causeInfo, s.pc, s.out⟩

/-! ## WellFormed refuses an ill-formed term -/

theorem test_wf_refuses_operand_a : WellFormed (.ldi 8 5) = false ∧ WellFormed (.prn 8) = false ∧
    WellFormed (.add 8 0) = false ∧ WellFormed (.not 255) = false ∧
    WellFormed (.push 8) = false ∧ WellFormed (.call 8) = false ∧ WellFormed (.jeq 9) = false := by
  decide

theorem test_wf_refuses_operand_b : WellFormed (.add 0 8) = false ∧
    WellFormed (.div 0 8) = false ∧ WellFormed (.cmp 0 200) = false := by decide

theorem test_wf_accepts_any_immediate : WellFormed (.ldi 7 255) = true := by decide

/-! ## Decoding: one word written out from the encoding of R52, R56 for each constructor -/

theorem test_decode_system :
    decode [0b00000001] = .ok (.hlt, []) ∧
    decode [0b10000010, 0b00000011, 0b11111111] = .ok (.ldi 3 255, []) ∧
    decode [0b01000111, 0b00000101] = .ok (.prn 5, []) := ⟨rfl, rfl, rfl⟩

theorem test_decode_arithmetic :
    decode [0b10100000, 0b00000001, 0b00000010] = .ok (.add 1 2, []) ∧
    decode [0b10100001, 0b00000001, 0b00000010] = .ok (.sub 1 2, []) ∧
    decode [0b10100010, 0b00000001, 0b00000010] = .ok (.mul 1 2, []) ∧
    decode [0b10100011, 0b00000001, 0b00000010] = .ok (.div 1 2, []) ∧
    decode [0b10100100, 0b00000001, 0b00000010] = .ok (.mod 1 2, []) := ⟨rfl, rfl, rfl, rfl, rfl⟩

theorem test_decode_bitwise :
    decode [0b10101000, 0b00000001, 0b00000010] = .ok (.and 1 2, []) ∧
    decode [0b10101010, 0b00000001, 0b00000010] = .ok (.or 1 2, []) ∧
    decode [0b10101011, 0b00000001, 0b00000010] = .ok (.xor 1 2, []) ∧
    decode [0b01101001, 0b00000111] = .ok (.not 7, []) ∧
    decode [0b10101100, 0b00000001, 0b00000010] = .ok (.shl 1 2, []) ∧
    decode [0b10101101, 0b00000001, 0b00000010] = .ok (.shr 1 2, []) :=
  ⟨rfl, rfl, rfl, rfl, rfl, rfl⟩

theorem test_decode_stack :
    decode [0b01000101, 0b00000110] = .ok (.push 6, []) ∧
    decode [0b01000110, 0b00000100] = .ok (.pop 4, []) := ⟨rfl, rfl⟩

theorem test_decode_control :
    decode [0b01010000, 0b00000001] = .ok (.call 1, []) ∧
    decode [0b00010001, 0b00000001] = .ok (.ret, [0b00000001]) ∧
    decode [0b10100111, 0b00000001, 0b00000010] = .ok (.cmp 1 2, []) ∧
    decode [0b01010100, 0b00000010] = .ok (.jmp 2, []) ∧
    decode [0b01010101, 0b00000010] = .ok (.jeq 2, []) ∧
    decode [0b01010110, 0b00000011] = .ok (.jne 3, []) := ⟨rfl, rfl, rfl, rfl, rfl, rfl⟩

/-- R57: 0xFF, 0x00 and vectors F11, F12, F13; R75: a missing operand is named. -/
theorem test_decode_rejects_by_name :
    decode [0xFF] = .error (.unrecognizedOpcode 0xFF) ∧
    decode [0x00] = .error (.unrecognizedOpcode 0x00) ∧
    decode [0x40, 0x00] = .error (.unrecognizedOpcode 0x40) ∧
    decode [0x83, 0, 0] = .error (.unrecognizedOpcode 0x83) ∧
    decode [0xC1] = .error (.unrecognizedOpcode 0xC1) ∧
    decode [] = .error .noOpcode ∧ decode [0x82] = .error (.missingOperand 1) ∧
    decode [0x82, 0] = .error (.missingOperand 2) := ⟨rfl, rfl, rfl, rfl, rfl, rfl, rfl, rfl⟩

/-- Bit 0 of a table word is the least significant bit of the first byte. -/
theorem test_decode_table_word :
    decodeTableWord 24 0x2A0382 = some (.ldi 3 42) ∧ decodeTableWord 8 0x82 = some (.ldi 0 0) ∧
    decodeTableWord 16 0xFF0445 = some (.push 4) ∧ decodeTableWord 8 0xFF = none := by decide

/-- The word placed is the one run, as the first instruction after reset. -/
theorem test_with_fetch_word :
    see (State.reset.withFetchWord 24 0x2A0382) (fun s => (s.reg 3, s.pc, s.run)) =
      some (42, 3, .running) := by decide

/-- R60's example: the scenario of the source as written. -/
theorem test_sequence_text :
    sequenceText [.ldi 0 8, .ldi 1 9, .mul 0 1, .prn 0, .hlt] =
      "LDI R0,8; LDI R1,9; MUL R0,R1; PRN R0; HLT" := by decide

/-! ## System and data movement -/

/-- Vectors D5 and D6. -/
theorem test_hlt :
    see (running 0 [0x01]) stop = some ⟨.halted, 1, 0, 0, 1, []⟩ ∧
    see (running 255 [0x01]) stop = some ⟨.halted, 1, 255, 0, 256, []⟩ := by decide

/-- Vectors D2 and D2b. -/
theorem test_ldi :
    see (running 0 [0x82, 0x07, 0x80]) (fun s => (s.sp, s.pc)) = some (0x80, 3) ∧
    see (running 0 [0x82, 0x00, 0xFF]) (fun s => (s.reg 0, s.pc)) = some (0xFF, 3) := by decide

/-- Vectors D3c and D4, with the text the host renders. -/
theorem test_prn :
    see ((running 0 [0x47, 0x00]).setReg 0 0x48) (fun s => (s.out, outText "\n" s.out)) =
      some ([.out 72], "72\n") ∧
    see (running 0 [0x47, 0x07]) (fun s => (s.out, s.pc)) = some ([.out 244], 2) := by decide

/-! ## The ALU: `OP R0,R1` with `R[0] = x`, `R[1] = y` (section 3.2) -/

/-- `R[0]`, `R[1]`, `PC` and `FL` after `OP R0,R1`. -/
def op (opcode x y : Byte) : Option (Byte × Byte × Pc × Byte) :=
  see (((running 0 [opcode, 0x00, 0x01]).setReg 0 x).setReg 1 y)
    fun s => (s.reg 0, s.reg 1, s.pc, s.fl)

theorem test_add : op 0xA0 200 100 = some (44, 100, 3, 0) ∧
    op 0xA0 255 255 = some (254, 255, 3, 0) := by decide

theorem test_sub : op 0xA1 5 10 = some (251, 10, 3, 0) ∧ op 0xA1 0 255 = some (1, 255, 3, 0) := by
  decide

theorem test_mul : op 0xA2 16 16 = some (0, 16, 3, 0) ∧ op 0xA2 255 255 = some (1, 255, 3, 0) := by
  decide

theorem test_div : op 0xA3 100 7 = some (14, 7, 3, 0) ∧ op 0xA3 255 1 = some (255, 1, 3, 0) := by
  decide

theorem test_div_by_zero :
    see ((running 0 [0xA3, 0x00, 0x01]).setReg 0 100) (fun s => (s.reg 0, stop s)) =
      some (100, ⟨.halted, 2, 0, 1, 3, [.diag .divideByZero 0 1]⟩) := by decide

theorem test_mod : op 0xA4 100 7 = some (2, 7, 3, 0) ∧ op 0xA4 5 9 = some (5, 9, 3, 0) := by decide

/-- `MOD R0,R0` with `R[0] = 0` (R114). -/
theorem test_mod_by_zero :
    see (running 0 [0xA4, 0x00, 0x00]) stop =
      some ⟨.halted, 2, 0, 0, 3, [.diag .divideByZero 0 0]⟩ := by decide

theorem test_and : op 0xA8 0xCC 0xAA = some (0x88, 0xAA, 3, 0) := by decide

theorem test_or : op 0xAA 0xCC 0xAA = some (0xEE, 0xAA, 3, 0) := by decide

theorem test_xor : op 0xAB 0xCC 0xAA = some (0x66, 0xAA, 3, 0) := by decide

theorem test_not :
    see ((running 0 [0x69, 0x00]).setReg 0 0x0F) (fun s => (s.reg 0, s.pc)) = some (0xF0, 2) := by
  decide

theorem test_shl : op 0xAC 0x81 1 = some (0x02, 1, 3, 0) ∧
    op 0xAC 0xFF 255 = some (0x00, 255, 3, 0) := by decide

theorem test_shr : op 0xAD 0x81 1 = some (0x40, 1, 3, 0) ∧
    op 0xAD 0x80 8 = some (0x00, 8, 3, 0) := by decide

/-! ## The stack -/

/-- Vectors S2 (wrap at 0) and S5 (`PUSH R7`). -/
theorem test_push :
    see (((running 0 [0x45, 0x00]).setReg 0 0x5A).setReg 7 0x00)
      (fun s => (s.sp, s.byteAt 0xFF, s.byteAt 0, s.pc)) = some (0xFF, 0x5A, 0x45, 2) ∧
    see (running 0 [0x45, 0x07]) (fun s => (s.sp, s.byteAt 0xF3)) = some (0xF3, 0xF3) := by decide

/-- Vectors S3 (wrap at 255) and S6 (`POP R7`). -/
theorem test_pop :
    see (((running 0 [0x46, 0x01]).setReg 7 0xFF).setByte 0xFF 0x77)
      (fun s => (s.reg 1, s.sp, s.byteAt 0xFF, s.pc)) = some (0x77, 0x00, 0x77, 2) ∧
    see ((running 0 [0x46, 0x07]).setByte 0xF4 0x20) State.sp = some 0x21 := by decide

/-! ## Compare and control -/

/-- Vectors C1 and C4 (`CALL R7`). -/
theorem test_call :
    see ((running 0x10 [0x50, 0x01]).setReg 1 0x30) (fun s => (s.pc, s.sp, s.byteAt 0xF3)) =
      some (0x30, 0xF3, 0x12) ∧
    see (running 0 [0x50, 0x07]) (fun s => (s.pc, s.sp, s.byteAt 0xF3)) =
      some (0xF3, 0xF3, 0x02) := by decide

/-- Vectors C5 and C12: the return address 256, and the register check before it. -/
theorem test_call_at_254 :
    see (running 254 [0x50, 0x00]) (fun s => (stop s, s.sp, s.byteAt 0xF3)) =
      some (⟨.faulted, 4, 254, 256, 254, [.diag .outOfRangeAddress 254 256]⟩, 0xF4, 0x00) ∧
    see (running 254 [0x50, 0x08]) stop =
      some ⟨.faulted, 5, 254, 8, 254, [.diag .outOfRangeRegister 254 8]⟩ := by decide

/-- Vectors C2 and C6c. -/
theorem test_ret :
    see (((running 0x30 [0x11]).setReg 7 0xF3).setByte 0xF3 0x12) (fun s => (s.pc, s.sp)) =
      some (0x12, 0xF4) ∧
    see (((running 0x30 [0x11]).setReg 7 0xFF).setByte 0xFF 0x22) (fun s => (s.pc, s.sp)) =
      some (0x22, 0x00) := by decide

/-- Table CMP: 255 against 1 is G, a second CMP replaces the flags. -/
theorem test_cmp : op 0xA7 255 1 = some (255, 1, 3, 0x02) ∧
    see ((running 0 [0xA7, 0x00, 0x00]).setFl 0x04) State.fl = some 0x01 ∧
    op 0xA7 127 128 = some (127, 128, 3, 0x04) := by decide

/-- Vector C7. -/
theorem test_jmp :
    see ((running 0 [0x54, 0x03]).setReg 3 0x80) State.pc = some 0x80 := by decide

/-- Table J. -/
theorem test_jeq :
    see (((running 0x10 [0x55, 0x02]).setReg 2 0x40).setFl 0x01) State.pc = some 0x40 ∧
    see (((running 0x10 [0x55, 0x02]).setReg 2 0x40).setFl 0x02) State.pc = some 0x12 := by decide

/-- Table J. -/
theorem test_jne :
    see ((running 0x10 [0x56, 0x02]).setReg 2 0x40) State.pc = some 0x40 ∧
    see (((running 0x10 [0x56, 0x02]).setReg 2 0x40).setFl 0x01) State.pc = some 0x12 := by decide

/-! ## Faults (section 3.6) -/

/-- Vectors F2, F3, F4, F5. -/
theorem test_fetch_faults :
    see (running 255 [0x47]) stop =
      some ⟨.faulted, 4, 255, 256, 255, [.diag .outOfRangeAddress 255 256]⟩ ∧
    see (running 254 [0x82, 0x00]) stop =
      some ⟨.faulted, 4, 254, 256, 254, [.diag .outOfRangeAddress 254 256]⟩ ∧
    see (running 255 [0xFF]) stop =
      some ⟨.faulted, 3, 255, 255, 255, [.diag .unrecognizedOpcode 255 255]⟩ ∧
    see (running 0 []) stop = some ⟨.faulted, 3, 0, 0, 0, [.diag .unrecognizedOpcode 0 0]⟩ := by
  decide

/-- Vectors F7, F8, C11, and the second step of F3b. -/
theorem test_register_and_top_faults :
    see (running 0 [0xA0, 0x08, 0x09]) stop =
      some ⟨.faulted, 5, 0, 8, 0, [.diag .outOfRangeRegister 0 8]⟩ ∧
    see (running 0 [0xA3, 0x00, 0x08]) stop =
      some ⟨.faulted, 5, 0, 8, 0, [.diag .outOfRangeRegister 0 8]⟩ ∧
    see ((running 0 [0x56, 0x09]).setFl 0x01) (fun s => (s.causeInfo, s.fl)) = some (9, 0x01) ∧
    see (running 256 []) stop =
      some ⟨.faulted, 4, 256, 256, 256, [.diag .outOfRangeAddress 256 256]⟩ := by decide

/-- Section 3.5, D16: the host's events, and nothing runs before `start`. -/
theorem test_host_events :
    (nextState (hostEvent (.load [0x01, 0x02]) State.reset)).map (fun s => s.mem) =
      some [(0, 0x01), (1, 0x02)] ∧
    (nextState (hostEvent .start State.reset)).map (fun s => (s.run, s.pc)) =
      some (.running, 0) ∧
    see State.reset id = some State.reset ∧
    nextState (hostEvent .reset (running 3 [0xFF])) = some State.reset := by decide

/-! ## Witnesses: states and operands that meet the hypotheses of each statement -/

/-- The default opcode map meets R58. -/
theorem default_map_admissible : OpcodeMap.Admissible defaultOpcodeMap := by
  refine ⟨fun o o' => ?_, fun o => ?_, fun o => ?_, fun o => ?_⟩
  · cases o <;> cases o' <;> simp [defaultOpcodeMap]
  all_goals cases o <;> decide

/-- The reset state, and its registers overwritten, meet the invariant. -/
theorem reset_meets_invariant_after_start :
    MachineInv { State.reset with run := .running } where
  memory := Memory.wf_nil
  flags := .inl rfl
  pc := by decide
  notStopped := fun _ => ⟨rfl, rfl, rfl⟩
  halted := fun h => nomatch h
  faulted := fun h => nomatch h
  causePc := by decide
  reported := fun h => absurd rfl h

/-- A running state meets the invariant, and its step answers a next state. -/
theorem witness_EveryStepKeepsMachineInvariant :
    ∃ t, MachineInv { State.reset with run := .running } ∧
      stepWith defaultOpcodeMap { State.reset with run := .running } = .next t :=
  ⟨_, reset_meets_invariant_after_start, rfl⟩

theorem witness_EveryHostEventKeepsMachineInvariant :
    ∃ t, MachineInv { State.reset with run := .running } ∧
      hostEvent .reset { State.reset with run := .running } = .next t :=
  ⟨_, reset_meets_invariant_after_start, rfl⟩

/-- A program loaded, started and stepped once reaches a state that is not the reset state. -/
theorem witness_EveryReachableStateMeetsMachineInvariant :
    ∃ t, Reachable t ∧ t.run = .halted :=
  ⟨_, .step (.host .start (.host (.load [0x01]) .reset rfl) rfl) rfl, rfl⟩

theorem witness_StartOnlyTurnsReadyIntoRunning :
    State.reset.run = .ready ∧ (running 0 []).run ≠ .ready := by decide

theorem witness_LoadWritesBytesFromAddressZero :
    ((List.replicate 256 (0x11 : Byte)).length ≤ 256 ∧ State.reset.run = .ready) ∧
    ((List.replicate 256 (0x11 : Byte)).length ≤ 256 ∧ (running 0 []).run ≠ .ready) ∧
    256 < (List.replicate 257 (0x11 : Byte)).length := by
  simp only [List.length_replicate]; decide

theorem witness_StatusReadableExactlyWhenNotRunning :
    (running 0 []).run = .running ∧ State.reset.run ≠ .running := by decide

theorem witness_CanonicalMemoriesReadingAlikeAreEqual :
    Memory.wf [(0, 0x01), (255, 0x02)] ∧
    Memory.wf (Memory.writeBytes (Memory.write [] 255 0x02) 0 [0x01]) ∧
    ∀ x < 256, Memory.read [(0, 0x01), (255, 0x02)] x =
      Memory.read (Memory.writeBytes (Memory.write [] 255 0x02) 0 [0x01]) x := by
  refine ⟨by decide, by decide, fun _ _ => rfl⟩

theorem witness_MemoryWriteSetsItsCellOnly :
    Memory.wf [(255, 0x02)] ∧ (255 : Nat) < 256 := by decide

/-! ### Decode and step -/

theorem witness_DecodeOfEncodeIsIdentity : OpcodeMap.Admissible defaultOpcodeMap :=
  default_map_admissible

theorem witness_DecodedBytesAreTheEncoding :
    decodeWith defaultOpcodeMap [0x82, 0xFF, 0xFF, 0x01] = .ok (.ldi 0xFF 0xFF, [0x01]) := rfl

theorem witness_CountFieldThreeIsUnrecognized :
    OpcodeMap.Admissible defaultOpcodeMap ∧ 0xC0 ≤ (0xC0 : Byte).toNat ∧
      0xC0 ≤ (0xFF : Byte).toNat := ⟨default_map_admissible, by decide, by decide⟩

/-- The last instruction that fits, at 253, and an ill-formed one. -/
theorem witness_StepRunsTheInstructionAtPc :
    OpcodeMap.Admissible defaultOpcodeMap ∧ (running 253 [0x82, 0x07, 0xFF]).run = .running ∧
    InstructionAtPc defaultOpcodeMap (running 253 [0x82, 0x07, 0xFF]) (.ldi 7 255) ∧
    InstructionAtPc defaultOpcodeMap (running 0 [0xA0, 0x08, 0x00]) (.add 8 0) := by
  refine ⟨default_map_admissible, rfl, ?_, ?_⟩ <;> unfold InstructionAtPc <;> decide

theorem witness_StepRunsDecodedInstruction :
    (running 255 [0x11]).run = .running ∧
    decode (fetchBytes (running 255 [0x11])) = .ok (.ret, []) ∧ WellFormed .ret = true :=
  ⟨rfl, rfl, rfl⟩

theorem witness_TerminalStatesOnlyLeftByReset :
    (∃ t, hostEvent .reset { State.reset with run := .halted } = .next t ∧
      t ≠ { State.reset with run := .halted }) ∧
    ({ State.reset with run := .faulted } : State).run = .faulted :=
  ⟨⟨_, rfl, by decide⟩, rfl⟩

/-- One witness for each clause: `pc`, `bytes` give a running machine that stands at `i` and steps. -/
def StandsAt (pc : Nat) (bytes : List Byte) (i : Instr) (f : State → Bool) : Prop :=
  InstructionAtPc defaultOpcodeMap (running pc bytes) i ∧
    (nextState (step (running pc bytes))).map f = some true

theorem witness_ProgramCounterAfterEachInstruction :
    OpcodeMap.Admissible defaultOpcodeMap ∧
    StandsAt 0 [0x54, 0x08] (.jmp 8) (fun t => t.run == .faulted) ∧
    StandsAt 255 [0x01] .hlt (fun t => t.run == .halted) ∧
    StandsAt 254 [0x47, 0x07] (.prn 7) (fun t => t.run == .running && 255 < t.pc.toNat) ∧
    StandsAt 253 [0xA3, 0x00, 0x01] (.div 0 1) (fun t => t.run == .halted) ∧
    StandsAt 0 [0x54, 0x07] (.jmp 7) (fun t => t.run == .running) ∧
    StandsAt 254 [0x55, 0x00] (.jeq 0) (fun t => t.run == .running && 255 < t.pc.toNat) ∧
    StandsAt 0 [0x56, 0x07] (.jne 7) (fun t => t.run == .running) ∧
    StandsAt 253 [0x50, 0x07] (.call 7) (fun t => t.run == .running) ∧
    StandsAt 255 [0x11] .ret (fun t => t.run == .running) := by
  refine ⟨default_map_admissible, ?_, ?_, ?_, ?_, ?_, ?_, ?_, ?_, ?_⟩ <;>
    (unfold StandsAt InstructionAtPc; decide)

/-! ### Instructions. A register operand is met at its lowest and its highest value -/

theorem witness_LdiWritesImmediate : (0 : Byte).toNat < 8 ∧ (7 : Byte).toNat < 8 := by decide

theorem witness_PrnEmitsRegisterValue : (0 : Byte).toNat < 8 ∧ (7 : Byte).toNat < 8 := by decide

theorem witness_LdiThenPrnEmitsTheValue :
    OpcodeMap.Admissible defaultOpcodeMap ∧ (7 : Byte).toNat < 8 ∧
    (running 251 [0x82, 0x07, 0xFF, 0x47, 0x07]).run = .running ∧
    (running 251 [0x82, 0x07, 0xFF, 0x47, 0x07]).pc.toNat + 5 ≤ 256 ∧
    ∀ k, (h : k < 5) →
      (running 251 [0x82, 0x07, 0xFF, 0x47, 0x07]).byteAt
          ((running 251 [0x82, 0x07, 0xFF, 0x47, 0x07]).pc.toNat + k) =
        [defaultOpcodeMap .ldi, 7, 0xFF, defaultOpcodeMap .prn, 7][k] :=
  ⟨default_map_admissible, by decide, rfl, by decide, by decide⟩

theorem witness_AddSubMulWriteResultModulo256 :
    (0 : Byte).toNat < 8 ∧ (7 : Byte).toNat < 8 := by decide

theorem witness_DivModWriteQuotientAndRemainder :
    (0 : Byte).toNat < 8 ∧ ∃ h : (7 : Byte).toNat < 8, State.reset.reg ⟨(7 : Byte).toNat, h⟩ ≠ 0 := by
  decide

theorem witness_ZeroDivisorHaltsWithDiagnostic :
    ((7 : Byte).toNat < 8 ∧ ∃ h : (0 : Byte).toNat < 8, State.reset.reg ⟨(0 : Byte).toNat, h⟩ = 0) ∧
    (7 < (8 : Byte).toNat ∨ 7 < (0 : Byte).toNat) ∧
    (7 < (0 : Byte).toNat ∨ 7 < (255 : Byte).toNat) := by decide

theorem witness_BitwiseInstructionsActOnEachBit :
    (0 : Byte).toNat < 8 ∧ (7 : Byte).toNat < 8 := by decide

theorem witness_ShiftsByFullRegisterValue :
    (0 : Byte).toNat < 8 ∧ ∃ h : (7 : Byte).toNat < 8,
      8 ≤ (State.reset.reg ⟨(7 : Byte).toNat, h⟩).toNat := by decide

theorem witness_AluEqualsByteArithmetic : (1 : Byte) ≠ 0x00#8 := by decide

/-- `R[7]` is 0xF4 and `R[0]` is 0 after reset: both branches of DIV and MOD. -/
theorem witness_SameRegisterReadsBothBeforeWrite :
    (7 : Byte).toNat < 8 ∧ (running 0 []).run = .running ∧
    (∀ i ∈ [Instr.add 7 7, .sub 7 7, .xor 7 7, .mul 7 7, .and 7 7, .or 7 7, .div 7 7, .mod 7 7,
        .shl 7 7, .shr 7 7, .div 0 0, .mod 0 0],
      (nextState (exec i (running 0 []))).isSome) := by decide

theorem witness_NotTwiceRestoresRegister :
    ∃ t u, (7 : Byte).toNat < 8 ∧ exec (.not 7) State.reset = .next t ∧
      exec (.not 7) t = .next u := ⟨_, _, by decide, rfl, rfl⟩

theorem witness_PushStoresBelowStackPointer :
    (6 : Byte).toNat < 8 ∧ (6 : Byte).toNat ≠ 7 := by decide

theorem witness_PopLoadsAtStackPointer :
    (6 : Byte).toNat < 8 ∧ (6 : Byte).toNat ≠ 7 := by decide

theorem witness_StackPointerOperandSeesEarlierEffects : (running 253 []).pc.toNat < 254 := by decide

/-- PUSH and POP at the top of memory, with `SP` at the wrap. -/
theorem witness_PushThenPopMovesValueAndRestoresStack :
    OpcodeMap.Admissible defaultOpcodeMap ∧ (6 : Byte).toNat < 7 ∧ (0 : Byte).toNat < 7 ∧
    (let s := (running 252 [0x45, 0x06, 0x46, 0x00]).setSp 0xFE
     s.run = .running ∧ s.pc.toNat + 4 ≤ 256 ∧
     (∀ k, (h : k < 4) → s.byteAt (s.pc.toNat + k) =
       [defaultOpcodeMap .push, 6, defaultOpcodeMap .pop, 0][k]) ∧
     pushAddr s ≠ s.pc.toNat + 2 ∧ pushAddr s ≠ s.pc.toNat + 3) :=
  ⟨default_map_admissible, by decide, by decide, by decide⟩

theorem witness_CallPushesReturnAddressAndJumps :
    (7 : Byte).toNat < 8 ∧ (6 : Byte).toNat ≠ 7 ∧ (running 253 []).pc.toNat < 254 := by decide

theorem witness_CallWithoutByteReturnAddressFaults :
    (running 254 []).pc = 254 ∧ (7 : Byte).toNat < 8 ∧ 7 < (8 : Byte).toNat := by decide

/-- The state after the CALL stands for the subroutine that changes nothing. -/
theorem witness_CallThenReturnResumesAfterOperand :
    ∃ t, (7 : Byte).toNat < 8 ∧ (running 253 [0x50, 0x07]).pc.toNat < 254 ∧
      exec (.call 7) (running 253 [0x50, 0x07]) = .next t ∧
      ∃ u : State, u.sp = t.sp ∧ u.byteAt t.sp.toNat = t.byteAt t.sp.toNat :=
  ⟨_, by decide, by decide, rfl, _, rfl, rfl⟩

/-- After reset `R[7]` is 0xF4 and the other registers are 0: equal and less, and greater with
the operands exchanged. -/
theorem witness_CmpReplacesFlagsUnsigned :
    State.reset.reg 0 = State.reset.reg 1 ∧
    (State.reset.reg 0).toNat < (State.reset.reg 7).toNat := by decide

theorem witness_JmpSetsProgramCounterOnly : (0 : Byte).toNat < 8 ∧ (7 : Byte).toNat < 8 := by decide

theorem witness_ConditionalJumpsTestEqual : (0 : Byte).toNat < 8 ∧ (7 : Byte).toNat < 8 := by decide

theorem witness_CompareThenJumpDecidesEquality :
    ∃ t u v, (7 : Byte).toNat < 8 ∧ exec (.cmp 0 7) State.reset = .next t ∧
      exec (.jeq 7) t = .next u ∧ exec (.jne 7) t = .next v :=
  ⟨_, _, _, by decide, rfl, rfl, rfl⟩

/-! ### Faults, halts, whole-machine rules, frames -/

theorem witness_RegisterOperandAboveSevenFaults :
    7 < (8 : Byte).toNat ∧ 7 < (255 : Byte).toNat ∧
    ((7 : Byte).toNat < 8 ∧ 7 < (8 : Byte).toNat) ∧ (7 : Byte).toNat < 8 := by decide

theorem witness_UnrecognizedOpcodeFaults :
    (running 255 [0xFF]).run = .running ∧ (running 255 [0xFF]).pc.toNat < 256 ∧
    ∀ o ∈ Mnemonic.all, defaultOpcodeMap o ≠ (running 255 [0xFF]).byteAt
      (running 255 [0xFF]).pc.toNat := by decide

theorem witness_FetchBeyondMemoryFaults :
    OpcodeMap.Admissible defaultOpcodeMap ∧ (running 256 []).run = .running ∧
    255 < (running 256 []).pc.toNat ∧
    ((running 255 [0x47]).pc.toNat < 256 ∧
      (running 255 [0x47]).byteAt 255 = defaultOpcodeMap .prn ∧
      255 < (running 255 [0x47]).pc.toNat + Mnemonic.operandCount .prn) ∧
    ((running 254 [0x82]).pc.toNat < 256 ∧
      (running 254 [0x82]).byteAt 254 = defaultOpcodeMap .ldi ∧
      255 < (running 254 [0x82]).pc.toNat + Mnemonic.operandCount .ldi) :=
  ⟨default_map_admissible, by decide⟩

theorem witness_FaultsArePrecise :
    ∃ t, (running 255 [0x47]).run = .running ∧
      stepWith defaultOpcodeMap (running 255 [0x47]) = .next t ∧ t.run = .faulted :=
  ⟨_, rfl, rfl, rfl⟩

theorem witness_HaltsRecordCauseAndAdvance :
    (∃ t, (running 255 [0x01]).run = .running ∧
      stepWith defaultOpcodeMap (running 255 [0x01]) = .next t ∧ t.run = .halted) ∧
    (∃ t, stepWith defaultOpcodeMap (running 253 [0xA4, 0x07, 0x00]) = .next t ∧ t.run = .halted) :=
  ⟨⟨_, rfl, rfl, rfl⟩, ⟨_, rfl, rfl⟩⟩

theorem witness_OnlyCmpWritesFlags :
    ∃ t, stepWith defaultOpcodeMap (running 253 [0xA7, 0x00, 0x07]) = .next t ∧
      t.fl ≠ (running 253 [0xA7, 0x00, 0x07]).fl := ⟨_, rfl, by decide⟩

theorem witness_OnlyPushAndCallWriteMemory :
    ∃ t, stepWith defaultOpcodeMap (running 0 [0x45, 0x07]) = .next t ∧
      t.byteAt 0xF3 ≠ (running 0 [0x45, 0x07]).byteAt 0xF3 := ⟨_, rfl, by decide⟩

theorem witness_OutputTraceGrowsByOneEvent :
    ∃ t, (running 254 [0x47, 0x07]).run = .running ∧
      stepWith defaultOpcodeMap (running 254 [0x47, 0x07]) = .next t := ⟨_, rfl, rfl⟩

/-- A step that goes on (PRN) and one that stops the run (HLT). -/
theorem witness_CauseAndTraceAreNeverRead :
    ∀ bytes ∈ [[0x47, 0x07], [0x01]],
      let s := running 0 bytes
      let s' := { s with cause := Cause.divideByZero, causePc := 5, out := [.out 1] }
      SameVisible s s' ∧ ∃ t t', stepWith defaultOpcodeMap s = .next t ∧
        stepWith defaultOpcodeMap s' = .next t' ∧ (t.run = s.run ↔ bytes ≠ [0x01]) := by
  intro bytes h
  rcases List.mem_pair.1 h with rfl | rfl <;>
    exact ⟨⟨rfl, rfl, rfl, rfl, rfl⟩, _, _, rfl, rfl, by decide⟩

/-- A step that leaves `FL` (RET) and one that writes it (CMP). -/
theorem witness_OnlyConditionalJumpsReadFlags :
    ∀ p ∈ [([0x11], Instr.ret, [0, 0]), ([0xA7, 0x00, 0x07], Instr.cmp 0 7, ([] : List Byte))],
      let s := running 0 p.1
      (∀ a rest, decodeWith defaultOpcodeMap (fetchBytes s) ≠ .ok (.jeq a, rest) ∧
        decodeWith defaultOpcodeMap (fetchBytes s) ≠ .ok (.jne a, rest)) ∧
      ∃ t t', stepWith defaultOpcodeMap s = .next t ∧
        stepWith defaultOpcodeMap { s with fl := 0x01 } = .next t' := by
  intro p h
  have hd : decodeWith defaultOpcodeMap (fetchBytes (running 0 p.1)) = .ok p.2 := by
    rcases List.mem_pair.1 h with rfl | rfl <;> rfl
  have hi : ∀ a, p.2.1 ≠ .jeq a ∧ p.2.1 ≠ .jne a := by
    rcases List.mem_pair.1 h with rfl | rfl <;> exact fun _ => ⟨nofun, nofun⟩
  refine ⟨fun a rest => ?_, ?_⟩
  · rw [hd]
    exact ⟨fun e => (hi a).1 (by injection e with e; rw [e]),
      fun e => (hi a).2 (by injection e with e; rw [e])⟩
  · rcases List.mem_pair.1 h with rfl | rfl <;> exact ⟨_, _, rfl, rfl⟩

theorem witness_FrameOfLdiAndAlu :
    (running 0 []).run = .running ∧
    ∀ i ∈ [Instr.ldi 7 0, .add 7 0, .sub 7 0, .mul 7 0, .div 7 0, .mod 7 0, .and 7 0, .or 7 0,
      .xor 7 0, .not 7, .shl 7 0, .shr 7 0], (nextState (exec i (running 0 []))).isSome := by decide

theorem witness_FrameOfHltPrnCmpAndJumps :
    (running 0 []).run = .running ∧
    ∀ i ∈ [Instr.hlt, .prn 7, .cmp 7 0, .jmp 7, .jeq 7, .jne 7],
      (nextState (exec i (running 0 []))).isSome := by decide

theorem witness_FrameOfPushAndCall :
    (running 0 []).run = .running ∧
    ∀ i ∈ [Instr.push 7, .call 7], (nextState (exec i (running 0 []))).isSome := by decide

theorem witness_FrameOfPopAndRet :
    (running 0 []).run = .running ∧
    ∀ i ∈ [Instr.pop 7, .ret], (nextState (exec i (running 0 []))).isSome := by decide

end Sys2Proof.Tests
end

section
/-! PROOFS. The ALU (`42_alu.md`): one register as source and destination (O33, R114) and the zero
divisor (O29, R102). First what the ALU's result and the two operand frames answer, then the two
obligations. -/

namespace Sys2Proof.Machine

/-! ## The ALU's result from its exact result (R101) -/

/-- An exact result that is a natural number is written modulo 256. -/
theorem alu_toNat_of_exact {op : AluOp} {x y : Byte} {n : Nat}
    (h : aluExact op x.toNat y.toNat = (n : Int)) : (alu op x y).toNat = n % 256 := by
  have hexact := alu_toInt op x y
  rw [h] at hexact
  exact_mod_cast hexact

/-- An exact result that fits a byte is written as it is. -/
theorem alu_eq_of_exact {op : AluOp} {x y z : Byte}
    (h : aluExact op x.toNat y.toNat = (z.toNat : Int)) : alu op x y = z :=
  BitVec.eq_of_toNat_eq ((alu_toNat_of_exact h).trans (Nat.mod_eq_of_lt z.isLt))

/-- What the ALU writes for a right shift: the quotient is a byte, so nothing is masked off. -/
theorem alu_shr_toNat (x y : Byte) : (alu .shr x y).toNat = x.toNat / 2 ^ y.toNat := by
  have hle : x.toNat / 2 ^ y.toNat ≤ x.toNat := Nat.div_le_self _ _
  have hmod : (alu .shr x y).toNat = x.toNat / 2 ^ y.toNat % 256 := alu_toNat_of_exact rfl
  rw [hmod, Nat.mod_eq_of_lt (hle.trans_lt x.isLt)]

/-! ## Equal operands (R114) -/

theorem alu_add_self (x : Byte) : (alu .add x x).toNat = 2 * x.toNat % 256 :=
  alu_toNat_of_exact (by simp only [aluExact]; omega)

theorem alu_mul_self (x : Byte) : (alu .mul x x).toNat = x.toNat ^ 2 % 256 :=
  alu_toNat_of_exact (by simp [aluExact, pow_two])

theorem alu_sub_self (x : Byte) : alu .sub x x = 0x00#8 := alu_eq_of_exact (by simp [aluExact])

theorem alu_xor_self (x : Byte) : alu .xor x x = 0x00#8 := alu_eq_of_exact (by simp [aluExact])

theorem alu_and_self (x : Byte) : alu .and x x = x := alu_eq_of_exact (by simp [aluExact])

theorem alu_or_self (x : Byte) : alu .or x x = x := alu_eq_of_exact (by simp [aluExact])

theorem alu_mod_self (x : Byte) : alu .mod x x = 0x00#8 := alu_eq_of_exact (by simp [aluExact])

theorem alu_div_self {x : Byte} (hx : x ≠ 0x00#8) : alu .div x x = 0x01#8 := by
  have hpos : 0 < x.toNat := Nat.pos_of_ne_zero fun h => hx (BitVec.eq_of_toNat_eq h)
  exact alu_eq_of_exact (by simp [aluExact, Nat.div_self hpos])

/-! ## What the operand frames answer (R100, R102) -/

/-- Two register operands of which one is above 7: the fault reports `a` before `b` (R154). -/
theorem withRegs_of_ge {a b : Byte} (h : 7 < a.toNat ∨ 7 < b.toNat) (s : State)
    (go : Fin 8 → Fin 8 → Result) :
    withRegs a b s go =
      .next (takeFault .outOfRangeRegister (zext9 (if 7 < a.toNat then a else b)) s) := by
  by_cases ha : 7 < a.toNat
  · rw [if_pos ha, withRegs, withReg_of_ge ha]
  · rw [if_neg ha, withRegs, withReg_of_lt (by omega), withReg_of_ge (h.resolve_left ha)]

section
variable {op : AluOp} {a b : Byte} {s t : State} (ha : a.toNat < 8) (hb : b.toNat < 8)
include ha hb

/-- The destination holds the ALU's result of the two old values. -/
theorem reg_of_aluTwo (h : aluTwo op a b s = .next t) :
    t.reg ⟨a.toNat, ha⟩ = alu op (s.reg ⟨a.toNat, ha⟩) (s.reg ⟨b.toNat, hb⟩) := by
  rw [aluTwo_of_lt op ha hb] at h
  injection h with h
  simp [← h, State.reg_setReg]

theorem aluDivide_of_zero (hz : s.reg ⟨b.toNat, hb⟩ = 0x00#8) :
    aluDivide op a b s = .next (takeZeroDivisorHalt b 2 s) :=
  (aluDivide_of_lt op ha hb s).trans (if_pos hz)

/-- With a divisor that is not zero DIV and MOD are like every two-operand instruction. -/
theorem aluDivide_of_ne_zero (hz : s.reg ⟨b.toNat, hb⟩ ≠ 0x00#8) :
    aluDivide op a b s = aluTwo op a b s := by
  rw [aluDivide_of_lt op ha hb, if_neg hz, aluTwo_of_lt op ha hb]

/-- DIV and MOD halt on a zero divisor, and otherwise leave the ALU's result in the destination. -/
theorem halted_or_reg_of_aluDivide (h : aluDivide op a b s = .next t) :
    if s.reg ⟨b.toNat, hb⟩ = 0x00#8 then t.run = .halted
    else t.reg ⟨a.toNat, ha⟩ = alu op (s.reg ⟨a.toNat, ha⟩) (s.reg ⟨b.toNat, hb⟩) := by
  split
  case isTrue hz =>
    rw [aluDivide_of_zero ha hb hz] at h
    injection h with h
    simp [← h]
  case isFalse hz =>
    exact reg_of_aluTwo ha hb (aluDivide_of_ne_zero ha hb hz ▸ h)

end

/-- DIV and MOD share one frame. -/
theorem exec_eq_aluDivide {i : Instr} {a b : Byte} (h : i ∈ [Instr.div a b, Instr.mod a b])
    (s : State) : ∃ op, exec i s = aluDivide op a b s := by
  rcases List.mem_pair.1 h with rfl | rfl
  · exact ⟨.div, rfl⟩
  · exact ⟨.mod, rfl⟩

end Sys2Proof.Machine

namespace Sys2Proof

open Machine

/-- Settles O33: each clause is the result the instruction's frame leaves in the destination, with
the ALU's value at equal operands. -/
theorem sameRegisterReadsBothBeforeWrite : Obligations.SameRegisterReadsBothBeforeWrite := by
  intro s a ha t _
  have hwritten {op : AluOp} (h : aluTwo op a a s = .next t) := reg_of_aluTwo ha ha h
  have hdivided {op : AluOp} (h : aluDivide op a a s = .next t) :=
    halted_or_reg_of_aluDivide ha ha h
  refine ⟨fun hadd => ?_, fun hsubXor => ?_, fun hmul => ?_, fun handOr => ?_, fun hdiv => ?_,
    fun hmod => ?_, fun hshl => ?_, fun hshr => ?_⟩
  · rw [hwritten (op := .add) hadd, alu_add_self]
  · rcases hsubXor with hsub | hxor
    · rw [hwritten (op := .sub) hsub, alu_sub_self]
    · rw [hwritten (op := .xor) hxor, alu_xor_self]
  · rw [hwritten (op := .mul) hmul, alu_mul_self]
  · rcases handOr with hand | hor
    · rw [hwritten (op := .and) hand, alu_and_self]
    · rw [hwritten (op := .or) hor, alu_or_self]
  · have hresult := hdivided (op := .div) hdiv
    split at hresult
    case isTrue hz => rwa [if_pos hz]
    case isFalse hz => rwa [if_neg hz, ← alu_div_self hz]
  · simpa only [alu_mod_self] using hdivided (op := .mod) hmod
  · rw [hwritten (op := .shl) hshl]
    exact alu_toNat_of_exact rfl
  · rw [hwritten (op := .shr) hshr, alu_shr_toNat]

/-- Settles O29: with two registers the zero divisor is the halt of R102, and a register byte above
7 faults before the divisor is looked at. -/
theorem zeroDivisorHaltsWithDiagnostic : Obligations.ZeroDivisorHaltsWithDiagnostic := by
  intro s a b i hi
  obtain ⟨op, hexec⟩ := exec_eq_aluDivide hi s
  rw [hexec]
  constructor
  · intro ha hb hz
    rw [aluDivide_of_zero ha hb hz]
    rfl
  · intro hbad
    exact ⟨_, withRegs_of_ge hbad s _, rfl, rfl⟩

end Sys2Proof
end

section
/-! PROOFS. Faults and halts (`60_exceptions.md`): which steps end in `Halted` (O51, R158), and the
unrecognised opcode (O48, R151). First what a step answers when nothing is decoded and when the
machine is not running, then the two obligations. -/

namespace Sys2Proof.Machine

/-! ## Halting (R158) -/

@[simp] theorem takeDecodeFault_run (e : DecodeError) (s : State) :
    (takeDecodeFault e s).run = .faulted := by
  cases e <;> rfl

/-- An instruction that stops a running machine in `Halted` is HLT, or DIV or MOD with a zero
divisor: the faults end in `Faulted`, and a completed instruction leaves `RUN` as it is. -/
theorem exec_halted {i : Instr} {s t : State} (hrun : s.run = .running)
    (hexec : exec i s = .next t) (hhalt : t.run = .halted) :
    (i = .hlt ∧ t = takeHalt .haltInstruction 0 0 s) ∨
    (∃ (a b : Byte) (hb : b.toNat < 8), (i = .div a b ∨ i = .mod a b) ∧
      s.reg ⟨b.toNat, hb⟩ = 0x00#8 ∧ t = takeZeroDivisorHalt b 2 s) := by
  rcases exec_cases hexec with ⟨_, _, _, rfl⟩ | ⟨_, _, _, _, rfl⟩ | hhlt | hzero | hcompleted
  · simp at hhalt
  · simp at hhalt
  · exact .inl hhlt
  · exact .inr hzero
  · simp [hcompleted.run, hrun] at hhalt

/-- A step that stops a running machine in `Halted` decoded an instruction: a fetch or a decode that
gives none ends in `Faulted`. -/
theorem stepWith_halted {m : OpcodeMap} {s t : State} (hrun : s.run = .running)
    (hstep : stepWith m s = .next t) (hhalt : t.run = .halted) :
    ∃ i rest, decodeWith m (fetchBytes s) = .ok (i, rest) ∧ exec i s = .next t := by
  rcases stepWith_cases hstep with ⟨hstopped, _⟩ | ⟨_, _, _, rfl⟩ | ⟨_, hdecoded⟩
  · exact absurd hrun hstopped
  · simp at hhalt
  · exact hdecoded

/-! ## The unrecognised opcode (R151) -/

/-- Only a running machine takes a step (R71, R78). -/
theorem stepWith_of_not_running (m : OpcodeMap) {s : State} (h : s.run ≠ .running) :
    stepWith m s = .next s := by
  unfold stepWith
  cases hrun : s.run with
  | running => exact absurd hrun h
  | ready | halted | faulted => rfl

/-- A running machine that fetches no instruction takes the fault of the rejection. -/
theorem stepWith_of_decode_error {m : OpcodeMap} {s : State} {e : DecodeError}
    (hrun : s.run = .running) (hdecode : decodeWith m (fetchBytes s) = .error e) :
    stepWith m s = .next (takeDecodeFault e s) := by
  simp only [stepWith, hrun, hdecode]

/-- With `PC` inside the memory the first fetched byte is the one at `PC`. -/
theorem exists_fetchBytes_eq_cons {s : State} (hpc : s.pc.toNat < 256) :
    ∃ operands, fetchBytes s = s.byteAt s.pc.toNat :: operands :=
  ⟨_, if_pos hpc⟩

/-- A byte without a dispatch entry is rejected whatever follows it (R57). -/
theorem decodeWith_of_unassigned {m : OpcodeMap} {b : Byte} (hb : ∀ o, m o ≠ b)
    (operands : List Byte) : decodeWith m (b :: operands) = .error (.unrecognizedOpcode b) := by
  simp only [decodeWith, lookupOpcode_none.2 hb]

end Sys2Proof.Machine

namespace Sys2Proof

open Machine

/-- Settles O51: the two halts of an instruction, whose states are those of the halt entry. -/
theorem haltsRecordCauseAndAdvance : Obligations.HaltsRecordCauseAndAdvance := by
  intro m s t hrun hstep hhalt
  obtain ⟨i, rest, hdecode, hexec⟩ := stepWith_halted hrun hstep hhalt
  refine ⟨i, rest, hdecode, ?_⟩
  rcases exec_halted hrun hexec hhalt with ⟨hi, rfl⟩ | ⟨a, b, hb, hi, hzero, rfl⟩
  · exact .inl ⟨hi, rfl⟩
  · exact .inr ⟨a, b, hb, hi, hzero, rfl⟩

/-- Settles O48: the first fetched byte is rejected, and the faulted machine takes no step. -/
theorem unrecognizedOpcodeFaults : Obligations.UnrecognizedOpcodeFaults := by
  intro m s hrun hpc hunassigned
  obtain ⟨operands, hfetch⟩ := exists_fetchBytes_eq_cons hpc
  have hdecode : decodeWith m (fetchBytes s) = .error (.unrecognizedOpcode (s.byteAt s.pc.toNat)) :=
    hfetch ▸ decodeWith_of_unassigned hunassigned operands
  exact ⟨_, stepWith_of_decode_error hrun hdecode, rfl, stepWith_of_not_running m nofun⟩

end Sys2Proof
end

section
/-! PROOFS. Encoding and decode (`30_encoding.md`): decoding an encoding (O13), the encoding of what
was decoded (O14), the unassigned bytes (O15), the default map (O12) and the written-out words
(O16). -/

namespace Sys2Proof

/-! ## The lookup of an opcode byte -/

/-- A map that gives no two mnemonics the same byte finds each mnemonic by its byte. -/
theorem lookupOpcode_of_injective {m : OpcodeMap} (hm : ∀ o o', m o = m o' → o = o')
    (o : Mnemonic) : lookupOpcode m (m o) = some o := by
  cases hfound : lookupOpcode m (m o) with
  | none => exact absurd rfl (lookupOpcode_none.1 hfound o)
  | some o' => rw [hm o' o (lookupOpcode_some hfound)]

/-- The count field of an assigned byte is at most 2 (R57, R58). -/
theorem OpcodeMap.Admissible.toNat_lt {m : OpcodeMap} (hm : m.Admissible) (o : Mnemonic) :
    (m o).toNat < 0xC0 := by
  obtain ⟨-, hcount, -, -⟩ := hm
  have hle : opcodeCount (m o) ≤ 2 := hcount o ▸ o.operandCount_le
  simp only [opcodeCount, BitVec.toNat_ushiftRight, Nat.shiftRight_eq_div_pow] at hle
  omega

theorem defaultOpcodeMap_injective (o o' : Mnemonic)
    (h : defaultOpcodeMap o = defaultOpcodeMap o') : o = o' := by
  have hall : ∀ p ∈ Mnemonic.all, ∀ p' ∈ Mnemonic.all,
      defaultOpcodeMap p = defaultOpcodeMap p' → p = p' := by decide
  exact hall o o.mem_all o' o'.mem_all h

theorem defaultOpcodeMap_admissible : OpcodeMap.Admissible defaultOpcodeMap :=
  ⟨defaultOpcodeMap_injective, fun o => (Laws.EncodingShape.fields o).1,
    fun o => (Laws.EncodingShape.fields o).2, fun o => by cases o <;> decide⟩

/-! ## Decoder and encoder -/

/-- The operand bytes of an instruction are read back, whatever follows them. -/
theorem decodeOperands_operandBytes (i : Instr) (rest : List Byte) :
    decodeOperands i.mnemonic (i.operandBytes ++ rest) = .ok (i, rest) := by
  cases i <;> rfl

/-- Operands that were read are the operand bytes of the instruction of that mnemonic. -/
theorem decodeOperands_ok {o : Mnemonic} {bytes rest : List Byte} {i : Instr}
    (h : decodeOperands o bytes = .ok (i, rest)) :
    i.mnemonic = o ∧ bytes = i.operandBytes ++ rest := by
  rcases decodeOperands_cases o bytes with ⟨a, b, rest', hok, hbytes⟩ | ⟨-, herror⟩
  · obtain ⟨rfl, rfl⟩ : i = instrOf o a b ∧ rest = rest' := by simpa [hok, eq_comm] using h
    exact ⟨instrOf_mnemonic o a b, by rw [hbytes, instrOf_operandBytes]⟩
  · simp [herror] at h

theorem decodeWith_of_lookup {m : OpcodeMap} {ir : Byte} {o : Mnemonic}
    (h : lookupOpcode m ir = some o) (operands : List Byte) :
    decodeWith m (ir :: operands) = decodeOperands o operands := by
  simp only [decodeWith, h]

/-- Settles O13: the opcode byte finds its mnemonic, whose operands are read back. -/
theorem decodeOfEncodeIsIdentity : Obligations.DecodeOfEncodeIsIdentity := by
  intro m i rest hm
  have hlookup := lookupOpcode_of_injective hm.1 i.mnemonic
  calc decodeWith m (encodeWith m i ++ rest)
      = decodeOperands i.mnemonic (i.operandBytes ++ rest) := decodeWith_of_lookup hlookup _
    _ = .ok (i, rest) := decodeOperands_operandBytes i rest

/-- Settles O14: an opcode byte with an entry is the map's byte of that entry, and the operands
taken are those of the instruction. -/
theorem decodedBytesAreTheEncoding : Obligations.DecodedBytesAreTheEncoding := by
  intro m bytes rest i h
  cases bytes with
  | nil => cases h
  | cons ir operands =>
    cases hlookup : lookupOpcode m ir with
    | none => simp [decodeWith, hlookup] at h
    | some o =>
      rw [decodeWith_of_lookup hlookup] at h
      obtain ⟨rfl, rfl⟩ := decodeOperands_ok h
      rw [← lookupOpcode_some hlookup]
      rfl

/-- Settles O15: a byte from 0xC0 on is above every assigned byte. -/
theorem countFieldThreeIsUnrecognized : Obligations.CountFieldThreeIsUnrecognized := by
  intro m b rest hm hb
  refine Machine.decodeWith_of_unassigned (fun o ho => ?_) rest
  have hlt := hm.toNat_lt o
  rw [ho] at hlt
  omega

/-- Settles O12: the map's bytes are looked at one by one, and the lookup of every byte counted. -/
theorem defaultOpcodeMapIsAdmissible : Obligations.DefaultOpcodeMapIsAdmissible :=
  ⟨defaultOpcodeMap_admissible, rfl, by decide +kernel⟩

/-- Settles O16: each word is the encoding of its instruction. -/
theorem writtenOutWordsDecode : Obligations.WrittenOutWordsDecode := by
  have hdecode (i : Instr) : decode (encode i ++ []) = .ok (i, []) :=
    decodeOfEncodeIsIdentity _ i [] defaultOpcodeMap_admissible
  exact ⟨hdecode .hlt, hdecode (.ldi 3 42), hdecode (.sub 2 3), hdecode (.not 4),
    hdecode (.pop 1), hdecode .ret, hdecode (.cmp 0 1), hdecode (.jne 3)⟩

end Sys2Proof
end

section
/-! PROOFS. Memory and the host (`20_memory.md`, `70_reset_and_hazards.md`): the canonical form
(O10), a memory write (O11), reset (O1), `start` (O2), `load` (O3), the status read (O4) and the
printed text (O5). -/

namespace Sys2Proof.Machine

/-! ## The canonical form (log entry 9) -/

/-- The cells of a canonical memory are the addresses that do not read 0x00, with what they read. -/
theorem Memory.mem_iff_read {m : Memory} (hm : Memory.wf m) (c : Host.Cell) :
    c ∈ m ↔ c.2 ≠ 0x00#8 ∧ Memory.read m c.1 = c.2 := by
  induction m with
  | nil => exact iff_of_false List.not_mem_nil fun h => h.1 h.2.symm
  | cons d m ih =>
    obtain ⟨hsorted, hcells⟩ := hm
    obtain ⟨hbelow, hsorted⟩ := List.pairwise_cons.1 hsorted
    have ih := ih ⟨hsorted, fun e he => hcells e (List.mem_cons_of_mem _ he)⟩
    obtain ⟨hd, hvalue⟩ := hcells d List.mem_cons_self
    rw [List.mem_cons, Memory.read_cons]
    by_cases haddr : c.1 = d.1
    · have hnotin : c ∉ m := fun hc => absurd haddr (Nat.ne_of_gt (hbelow c hc))
      rw [if_pos haddr]
      constructor
      · rintro (rfl | hc)
        · exact ⟨hvalue, rfl⟩
        · exact absurd hc hnotin
      · rintro ⟨-, hread⟩
        exact .inl (Prod.ext haddr hread.symm)
    · have hne : c ≠ d := fun h => haddr (congrArg Prod.fst h)
      rw [if_neg haddr, ← ih]
      exact or_iff_right hne

/-- A canonical memory lists no address above 255, so there it reads 0x00. -/
theorem Memory.read_of_ge {m : Memory} (hm : Memory.wf m) {x : Nat} (hx : 256 ≤ x) :
    Memory.read m x = 0x00#8 := by
  by_contra hne
  have hcell : (x, Memory.read m x) ∈ m := (Memory.mem_iff_read hm _).2 ⟨hne, rfl⟩
  exact absurd (hm.2 _ hcell).1 (Nat.not_lt.2 hx)

/-! ## The printed text (R24) -/

/-- The text of two traces in a row is their texts in a row. -/
theorem outText_append (separator : String) (trace more : List OutEvent) :
    outText separator (trace ++ more) = outText separator trace ++ outText separator more := by
  induction trace with
  | nil => simp [outText]
  | cons e trace ih => simp [outText, ih, String.append_assoc]

end Sys2Proof.Machine

namespace Sys2Proof

open Machine

/-- Settles O10: both lists are sorted, and list the addresses that do not read 0x00. -/
theorem canonicalMemoriesReadingAlikeAreEqual :
    Obligations.CanonicalMemoriesReadingAlikeAreEqual := by
  intro m m' hm hm' hread
  have hsame (x : Nat) : Memory.read m x = Memory.read m' x := by
    rcases Nat.lt_or_ge x 256 with hx | hx
    · exact hread x hx
    · rw [Memory.read_of_ge hm hx, Memory.read_of_ge hm' hx]
  refine hm.1.eq_of_mem_iff hm'.1 fun c => ?_
  rw [Memory.mem_iff_read hm, Memory.mem_iff_read hm', hsame]

/-- Settles O11. -/
theorem memoryWriteSetsItsCellOnly : Obligations.MemoryWriteSetsItsCellOnly := by
  intro m addr v hm haddr
  refine ⟨?_, fun x hx => ?_, Memory.wf_write hm haddr v⟩
  · rw [Memory.read_write, if_pos rfl]
  · rw [Memory.read_write, if_neg hx]

/-- Settles O1: reset does not look at the state, and its fields are read off. -/
theorem resetGivesEveryStateItsResetValue : Obligations.ResetGivesEveryStateItsResetValue := by
  intro s
  have hgpr : ∀ r : Fin 8, r ≠ 7 → State.reset.reg r = 0x00#8 := by decide
  exact ⟨State.reset, rfl, rfl, fun _ _ => rfl, hgpr, rfl, rfl, rfl, rfl, rfl, rfl, rfl, rfl, rfl⟩

/-- Settles O2: the two branches of `start`. -/
theorem startOnlyTurnsReadyIntoRunning : Obligations.StartOnlyTurnsReadyIntoRunning :=
  fun _ => ⟨fun hready => if_pos hready, fun hother => if_neg hother⟩

/-- Settles O3: the three branches of `load`; in the first the cells read as a string of writes from
address 0 leaves them. -/
theorem loadWritesBytesFromAddressZero : Obligations.LoadWritesBytesFromAddressZero := by
  intro s bytes
  refine ⟨fun hfits hready => ?_, fun hfits hother => ?_, fun hlong => ?_⟩
  · have hread := Memory.read_writeBytes s.mem 0 bytes
    refine ⟨{ s with mem := Memory.writeBytes s.mem 0 bytes }, ?_, fun k hk => ?_, fun x hx => ?_,
      rfl⟩
    · exact (if_pos hfits).trans (if_pos hready)
    · simp [State.byteAt_def, hread, hk]
    · simp [State.byteAt_def, hread, Nat.not_lt.2 hx]
  · exact (if_pos hfits).trans (if_neg hother)
  · exact if_neg (Nat.not_le.2 hlong)

/-- Settles O4: the status is every field of the state, and the 256 cells in order of address. -/
theorem statusReadableExactlyWhenNotRunning : Obligations.StatusReadableExactlyWhenNotRunning := by
  intro s
  refine ⟨fun hrun => if_pos hrun, fun hrun => ⟨_, if_neg hrun, ?_⟩⟩
  exact ⟨rfl, rfl, rfl, rfl, rfl, rfl, rfl, rfl, by simp, fun k _ => by simp⟩

/-- Settles O5. -/
theorem printedValueAppendsItsNumeral : Obligations.PrintedValueAppendsItsNumeral := by
  intro separator trace v
  rw [outText_append]
  simp [outText, eventText]

end Sys2Proof
end

section
/-! PROOFS. The invariant of the machine: at reset (O6), over a step (O7), over an event of the host
(O8), and so in every state a machine can reach (O9). -/

namespace Sys2Proof.Machine

/-! ## What the ends of a run and a completed instruction keep -/

/-- Past an instruction that lies inside the memory `PC` is at most 256 (R15). -/
theorem nextPc_toNat_le {s : State} {n : Nat} (h : s.pc.toNat + n < 256) :
    (s.nextPc n).toNat ≤ 256 := by
  rw [nextPc_toNat (by omega)]; omega

theorem zext9_toNat (v : Byte) : (zext9 v).toNat = v.toNat := by
  simp only [zext9, BitVec.toNat_setWidth]; omega

theorem compareFlags_cases (x y : Byte) :
    compareFlags x y = 0x01#8 ∨ compareFlags x y = 0x02#8 ∨ compareFlags x y = 0x04#8 := by
  unfold compareFlags
  split
  · exact .inl rfl
  · split
    · exact .inr (.inl rfl)
    · exact .inr (.inr rfl)

/-- What R150 records for a fault, with 256 as the only address (R21). -/
def FaultRecord (c : Cause) (info : Info) : Prop :=
  (c = .unrecognizedOpcode ∧ info.toNat < 256) ∨ (c = .outOfRangeAddress ∧ info = 256) ∨
  (c = .outOfRangeRegister ∧ 7 < info.toNat ∧ info.toNat < 256)

theorem faultRecord_of_operand {b : Byte} (hb : 7 < b.toNat) :
    FaultRecord .outOfRangeRegister (zext9 b) := by
  have hlt := b.isLt
  exact .inr (.inr ⟨rfl, by rw [zext9_toNat]; omega, by rw [zext9_toNat]; omega⟩)

section
variable {s : State} (hs : MachineInv s)
include hs

theorem MachineInv.of_takeFault {c : Cause} {info : Info} (hrecord : FaultRecord c info) :
    MachineInv (takeFault c info s) where
  memory := hs.memory
  flags := hs.flags
  pc := hs.pc
  notStopped := by simp
  halted := by simp
  faulted := fun _ => hrecord
  causePc := hs.pc
  reported := by simp

theorem MachineInv.of_takeHlt (hpc : s.pc.toNat < 256) :
    MachineInv (takeHalt .haltInstruction 0 0 s) where
  memory := hs.memory
  flags := hs.flags
  pc := nextPc_toNat_le hpc
  notStopped := by simp
  halted := fun _ => .inl ⟨rfl, rfl⟩
  faulted := by simp
  causePc := hs.pc
  reported := by simp

theorem MachineInv.of_takeZeroDivisorHalt {b : Byte} (hb : b.toNat < 8)
    (hpc : s.pc.toNat + 2 < 256) : MachineInv (takeZeroDivisorHalt b 2 s) where
  memory := hs.memory
  flags := hs.flags
  pc := nextPc_toNat_le hpc
  notStopped := by simp
  halted := fun _ => .inr ⟨rfl, by rwa [takeZeroDivisorHalt_causeInfo, zext9_toNat]⟩
  faulted := by simp
  causePc := hs.pc
  reported := by simp

/-- The fault of a fetch or a decode records one of the three that R150 lists. -/
theorem MachineInv.of_takeDecodeFault {m : OpcodeMap} {e : DecodeError}
    (he : decodeWith m (fetchBytes s) = .error e) : MachineInv (takeDecodeFault e s) := by
  have hpc := hs.pc
  rcases decodeWith_fetch_error he with ⟨rfl, hbeyond⟩ | ⟨-, -, rfl⟩ | ⟨k, rfl, hk⟩
  · exact hs.of_takeFault (.inr (.inl ⟨rfl, BitVec.eq_of_toNat_eq (Nat.le_antisymm hpc hbeyond)⟩))
  · exact hs.of_takeFault (.inl ⟨rfl, (zext9_toNat _).trans_lt (BitVec.isLt _)⟩)
  · refine hs.of_takeFault (.inr (.inl ⟨rfl, BitVec.eq_of_toNat_eq ?_⟩))
    simp [BitVec.toNat_add]; omega

theorem MachineInv.of_completed {i : Instr} {t : State} (hrun : s.run = .running)
    (hpc : s.pc.toNat + i.mnemonic.operandCount < 256) (hc : Completed i s t) : MachineInv t := by
  obtain ⟨hcause, hcausePc, hcauseInfo⟩ := hs.notStopped (.inr hrun)
  have hrunning : t.run = .running := hc.run.trans hrun
  refine ⟨?memory, ?flags, ?pc, fun _ => ⟨?_, ?_, ?_⟩, ?halted, ?faulted, ?causePc, ?reported⟩
  case memory =>
    rcases hc.mem with h | ⟨_, v, _, h⟩
    · exact h ▸ hs.memory
    · exact h ▸ Memory.wf_write hs.memory (pushAddr_lt s) v
  case flags =>
    rcases hc.fl with h | ⟨_, _, ra, rb, _, h⟩
    · exact h ▸ hs.flags
    · exact h ▸ .inr (compareFlags_cases _ _)
  case pc =>
    rcases hc.pc with h | ⟨_, v, h⟩
    · exact h ▸ nextPc_toNat_le hpc
    · rw [h, zext9_toNat]
      exact v.isLt.le
  case halted | faulted => simp [hrunning]
  case causePc => exact hc.causePc ▸ hs.causePc
  case reported => exact fun h => absurd (hc.cause.trans hcause) h
  · exact hc.cause.trans hcause
  · exact hc.causePc.trans hcausePc
  · exact hc.causeInfo.trans hcauseInfo

/-- An instruction whose bytes lie inside the memory keeps the invariant. -/
theorem MachineInv.of_exec {i : Instr} {t : State} (hrun : s.run = .running)
    (hpc : s.pc.toNat + i.mnemonic.operandCount < 256) (h : exec i s = .next t) :
    MachineInv t := by
  rcases exec_cases h with ⟨b, _, hb, rfl⟩ | ⟨a, rfl, _, hbeyond, rfl⟩ | ⟨rfl, rfl⟩ |
    ⟨a, b, hb, hi, _, rfl⟩ | hcompleted
  · exact hs.of_takeFault (faultRecord_of_operand hb)
  · have hle : (s.nextPc 1).toNat ≤ 256 := nextPc_toNat_le hpc
    exact hs.of_takeFault (.inr (.inl ⟨rfl, BitVec.eq_of_toNat_eq (Nat.le_antisymm hle hbeyond)⟩))
  · exact hs.of_takeHlt hpc
  · have hcount : i.mnemonic.operandCount = 2 := by rcases hi with rfl | rfl <;> rfl
    exact hs.of_takeZeroDivisorHalt hb (hcount ▸ hpc)
  · exact hs.of_completed hrun hpc hcompleted

end

end Sys2Proof.Machine

namespace Sys2Proof

open Machine

/-- Settles O7: nothing, the fault of a fetch or a decode, or an instruction that lies inside the
memory because it was decoded. -/
theorem everyStepKeepsMachineInvariant : Obligations.EveryStepKeepsMachineInvariant := by
  intro m s t hs hstep
  rcases stepWith_cases hstep with ⟨_, rfl⟩ | ⟨_, e, he, rfl⟩ | ⟨hrun, i, rest, hi, hexec⟩
  · exact hs
  · exact hs.of_takeDecodeFault he
  · exact hs.of_exec hrun (decodeWith_fetch_ok hi) hexec

/-- Settles O6. -/
theorem resetMeetsMachineInvariant : Obligations.ResetMeetsMachineInvariant where
  memory := Memory.wf_nil
  flags := .inl rfl
  pc := by decide
  notStopped := fun _ => ⟨rfl, rfl, rfl⟩
  halted := nofun
  faulted := nofun
  causePc := by decide
  reported := fun h => absurd rfl h

/-- Settles O8: `load` writes inside the memory, and `start` goes on with nothing recorded. -/
theorem everyHostEventKeepsMachineInvariant : Obligations.EveryHostEventKeepsMachineInvariant := by
  intro e s t hs hevent
  rcases hostEvent_cases hevent with ⟨_, rfl⟩ | rfl | ⟨bytes, _, _, hfits, rfl⟩ | ⟨_, hready, rfl⟩
  · exact resetMeetsMachineInvariant
  · exact hs
  · exact { hs with memory := Memory.wf_writeBytes hs.memory (by omega) }
  · exact { hs with
      notStopped := fun _ => hs.notStopped (.inl hready), halted := nofun, faulted := nofun }

/-- Settles O9, by induction on how the state is reached. -/
theorem everyReachableStateMeetsMachineInvariant :
    Obligations.EveryReachableStateMeetsMachineInvariant := by
  intro s hreach
  induction hreach with
  | reset => exact resetMeetsMachineInvariant
  | host e _ hevent ih => exact everyHostEventKeepsMachineInvariant e _ _ ih hevent
  | step _ hstep ih => exact everyStepKeepsMachineInvariant _ _ _ ih hstep

end Sys2Proof
end

section
/-! PROOFS. The step (`40_dispatch_loop.md`): what is fetched (O19), that a step runs the
instruction at `PC` (O17, O18), the terminal run states (O21) and the fetch beyond the memory
(O49). -/

namespace Sys2Proof.Machine

/-! ## The fetch -/

theorem fetchBytes_getElem? (s : State) (k : Nat) :
    (fetchBytes s)[k]? =
      if k < 3 ∧ s.pc.toNat + k < 256 then some (s.byteAt (s.pc.toNat + k)) else none :=
  bytesFrom_getElem? s s.pc.toNat 3 k

theorem encodeWith_length (m : OpcodeMap) (i : Instr) :
    (encodeWith m i).length = i.mnemonic.operandCount + 1 :=
  congrArg (· + 1) i.operandBytes_length

/-- What is fetched begins with the bytes of the instruction that stands at `PC`. -/
theorem InstructionAtPc.fetchBytes_eq {m : OpcodeMap} {s : State} {i : Instr}
    (h : InstructionAtPc m s i) : ∃ rest, fetchBytes s = encodeWith m i ++ rest := by
  obtain ⟨hinside, hbytes⟩ := h
  have hcount := i.mnemonic.operandCount_le
  have hlength := encodeWith_length m i
  simp only [memSize_eq] at hinside
  have hbegins : encodeWith m i <+: fetchBytes s := by
    refine List.prefix_iff_getElem?.2 fun k hk => ?_
    rw [fetchBytes_getElem?, if_pos ⟨by omega, by omega⟩, hbytes k hk]
  obtain ⟨rest, hrest⟩ := hbegins
  exact ⟨rest, hrest.symm⟩

theorem fetchBytes_of_pc_ge {s : State} (hpc : 255 < s.pc.toNat) : fetchBytes s = [] := by
  have hlength := fetchBytes_length s
  exact List.length_eq_zero_iff.1 (by omega)

/-- A recognised opcode whose operands do not all lie inside the memory lacks the one at 256. -/
theorem decodeWith_fetch_missing {m : OpcodeMap} (hm : m.Admissible) {s : State} {o : Mnemonic}
    (hpc : s.pc.toNat < 256) (hopcode : s.byteAt s.pc.toNat = m o)
    (hbeyond : 255 < s.pc.toNat + o.operandCount) :
    ∃ k, decodeWith m (fetchBytes s) = .error (.missingOperand k) ∧ s.pc.toNat + k = 256 := by
  obtain ⟨operands, hfetch⟩ := exists_fetchBytes_eq_cons hpc
  have hcount := o.operandCount_le
  have hlength : operands.length + 1 = min 3 (256 - s.pc.toNat) := by
    rw [← fetchBytes_length, hfetch, List.length_cons]
  rw [hfetch, hopcode, decodeWith_of_lookup (lookupOpcode_of_injective hm.1 o)]
  rcases decodeOperands_cases o operands with ⟨a, b, rest, -, hoperands⟩ | ⟨hshort, herror⟩
  · have htaken := congrArg List.length hoperands
    simp only [List.length_append, List.length_take, List.length_cons, List.length_nil] at htaken
    omega
  · exact ⟨_, herror, by omega⟩

/-! ## The step of a running machine -/

theorem stepWith_of_decode_ok {m : OpcodeMap} {s : State} {i : Instr} {rest : List Byte}
    (hrun : s.run = .running) (hdecode : decodeWith m (fetchBytes s) = .ok (i, rest)) :
    stepWith m s = exec i s := by
  simp only [stepWith, hrun, hdecode]

theorem stepWith_of_instructionAtPc {m : OpcodeMap} (hm : m.Admissible) {s : State} {i : Instr}
    (hrun : s.run = .running) (hi : InstructionAtPc m s i) : stepWith m s = exec i s := by
  obtain ⟨rest, hfetch⟩ := hi.fetchBytes_eq
  exact stepWith_of_decode_ok hrun (hfetch ▸ decodeOfEncodeIsIdentity m i rest hm)

theorem stepWith_of_pc_ge (m : OpcodeMap) {s : State} (hrun : s.run = .running)
    (hpc : 255 < s.pc.toNat) : stepWith m s = .next (takeFault .outOfRangeAddress s.pc s) := by
  have hdecode : decodeWith m (fetchBytes s) = .error .noOpcode := by
    rw [fetchBytes_of_pc_ge hpc]; rfl
  exact stepWith_of_decode_error hrun hdecode

end Sys2Proof.Machine

namespace Sys2Proof

open Machine

/-- Settles O19. -/
theorem fetchReadsMemoryAtPc : Obligations.FetchReadsMemoryAtPc := fetchBytes_getElem?

/-- Settles O17: what is fetched begins with the encoding, which decodes to the instruction. -/
theorem stepRunsTheInstructionAtPc : Obligations.StepRunsTheInstructionAtPc :=
  fun _ _ _ hm hrun hi => stepWith_of_instructionAtPc hm hrun hi

/-- Settles O18; that the instruction is well-formed is not needed. -/
theorem stepRunsDecodedInstruction : Obligations.StepRunsDecodedInstruction :=
  fun _ _ _ hrun hdecode _ => stepWith_of_decode_ok hrun hdecode

/-- Settles O21: of the events of the host only reset acts outside Ready. -/
theorem terminalStatesOnlyLeftByReset : Obligations.TerminalStatesOnlyLeftByReset := by
  intro m s hterminal
  have hnotRunning : s.run ≠ .running := by rcases hterminal with h | h <;> simp [h]
  have hnotReady : s.run ≠ .ready := by rcases hterminal with h | h <;> simp [h]
  refine ⟨stepWith_of_not_running m hnotRunning, fun e t hevent hchanged => ?_, rfl⟩
  rcases hostEvent_cases hevent with ⟨hreset, -⟩ | hsame | ⟨_, _, hready, _⟩ | ⟨_, hready, _⟩
  · exact hreset
  · exact absurd hsame hchanged
  · exact absurd hready hnotReady
  · exact absurd hready hnotReady

/-- Settles O49: with `PC` above 255 nothing is fetched, and of the operands that reach above 255
the first missing one is at 256. -/
theorem fetchBeyondMemoryFaults : Obligations.FetchBeyondMemoryFaults := by
  intro m s o hm hrun
  refine ⟨fun hpc => stepWith_of_pc_ge m hrun hpc, fun hpc hopcode hbeyond => ?_⟩
  obtain ⟨k, hdecode, hk⟩ := decodeWith_fetch_missing hm hpc hopcode hbeyond
  have haddress : s.pc + BitVec.ofNat 9 k = 256 := by
    apply BitVec.eq_of_toNat_eq
    simp [BitVec.toNat_add]; omega
  rw [stepWith_of_decode_error hrun hdecode, takeDecodeFault, haddress]
  rfl

end Sys2Proof
end

section
/-! PROOFS. What an instruction depends on: the effect of an instruction as data, the same for two
states that agree on what it can read. From it: every step answers (O20), `CAUSE*` and the trace are
never read (O55), and only JEQ and JNE read `FL` (O56). -/

namespace Sys2Proof.Machine

/-! ## Effects -/

/-- What an instruction does to the state it is executed in: one of the ends of a run, or new
memory, registers and `PC`, with the flags and the event it writes if it writes any. -/
inductive Effect where
  | fault (c : Cause) (info : Info)
  | hlt
  | zeroDivisor (b : Byte)
  | complete (mem : Memory) (regs : Vector Byte 8) (pc : Pc) (fl : Option Byte)
      (event : Option OutEvent)

/-- The state after an effect. -/
def Effect.apply (e : Effect) (s : State) : State :=
  match e with
  | .fault c info => takeFault c info s
  | .hlt => takeHalt .haltInstruction 0 0 s
  | .zeroDivisor b => takeZeroDivisorHalt b 2 s
  | .complete mem regs pc fl event =>
    { s with
      mem := mem, regs := regs, pc := pc, fl := fl.getD s.fl,
      out := match event with
        | some e => s.out ++ [e]
        | none => s.out }

/-- Two answers, given in `s` and in `s'`, are one effect. -/
def SameEffect (s s' : State) (r r' : Result) : Prop :=
  ∃ e : Effect, r = .next (e.apply s) ∧ r' = .next (e.apply s')

/-- The state `u` with the memory, registers and `PC` of `s`: what the two then share is all that an
instruction other than JEQ and JNE can read. -/
def State.shownIn (s u : State) : State := { u with mem := s.mem, regs := s.regs, pc := s.pc }

section
variable {s s' : State}

theorem sameEffect_withReg {b : Byte} {go go' : Fin 8 → Result}
    (h : ∀ r, SameEffect s s' (go r) (go' r)) :
    SameEffect s s' (withReg b s go) (withReg b s' go') := by
  rcases Nat.lt_or_ge 7 b.toNat with hb | hb
  · rw [withReg_of_ge hb, withReg_of_ge hb]
    exact ⟨.fault .outOfRangeRegister (zext9 b), rfl, rfl⟩
  · rw [withReg_of_lt (Nat.lt_succ_of_le hb), withReg_of_lt (Nat.lt_succ_of_le hb)]
    exact h _

theorem sameEffect_withRegs {a b : Byte} {go go' : Fin 8 → Fin 8 → Result}
    (h : ∀ ra rb, SameEffect s s' (go ra rb) (go' ra rb)) :
    SameEffect s s' (withRegs a b s go) (withRegs a b s' go') :=
  sameEffect_withReg fun ra => sameEffect_withReg fun rb => h ra rb

theorem sameEffect_ite {p : Prop} [Decidable p] {r₁ r₂ r₁' r₂' : Result}
    (h₁ : SameEffect s s' r₁ r₁') (h₂ : SameEffect s s' r₂ r₂') :
    SameEffect s s' (if p then r₁ else r₂) (if p then r₁' else r₂') := by
  split
  · exact h₁
  · exact h₂

end

section
variable (s u : State)

theorem aluTwo_sameEffect (op : AluOp) (a b : Byte) :
    SameEffect s (s.shownIn u) (aluTwo op a b s) (aluTwo op a b (s.shownIn u)) :=
  sameEffect_withRegs fun _ _ => ⟨.complete _ _ _ none none, rfl, rfl⟩

theorem aluDivide_sameEffect (op : AluOp) (a b : Byte) :
    SameEffect s (s.shownIn u) (aluDivide op a b s) (aluDivide op a b (s.shownIn u)) :=
  sameEffect_withRegs fun _ rb => sameEffect_ite (p := s.reg rb = 0x00#8)
    ⟨.zeroDivisor b, rfl, rfl⟩ ⟨.complete _ _ _ none none, rfl, rfl⟩

theorem execCall_sameEffect (a : Byte) :
    SameEffect s (s.shownIn u) (execCall a s) (execCall a (s.shownIn u)) :=
  sameEffect_withReg fun _ => sameEffect_ite (p := (s.nextPc 1).toNat > 255)
    ⟨.fault .outOfRangeAddress (s.nextPc 1), rfl, rfl⟩ ⟨.complete _ _ _ none none, rfl, rfl⟩

/-- An instruction has the same effect in two states that agree on memory, registers and `PC`, and
on `FL` where it is JEQ or JNE. -/
theorem exec_sameEffect (i : Instr) (hfl : u.fl = s.fl ∨ ∀ a, i ≠ .jeq a ∧ i ≠ .jne a) :
    SameEffect s (s.shownIn u) (exec i s) (exec i (s.shownIn u)) := by
  cases i with
  | hlt => exact ⟨.hlt, rfl, rfl⟩
  | ret => exact ⟨.complete _ _ _ none none, rfl, rfl⟩
  | ldi a _ | not a | push a | pop a | jmp a =>
    exact sameEffect_withReg fun _ => ⟨.complete _ _ _ none none, rfl, rfl⟩
  | prn a =>
    exact sameEffect_withReg fun ra =>
      ⟨.complete _ _ _ none (some (.out (s.reg ra))), rfl, rfl⟩
  | add a b | sub a b | mul a b | and a b | or a b | xor a b | shl a b | shr a b =>
    exact aluTwo_sameEffect s u _ a b
  | div a b | mod a b => exact aluDivide_sameEffect s u _ a b
  | cmp a b =>
    exact sameEffect_withRegs fun ra rb =>
      ⟨.complete _ _ _ (some (compareFlags (s.reg ra) (s.reg rb))) none, rfl, rfl⟩
  | call a => exact execCall_sameEffect s u a
  | jeq a | jne a =>
    have hfl : u.fl = s.fl := hfl.resolve_right fun h => by simpa using h a
    have htest : (s.shownIn u).lastEqual = s.lastEqual := congrArg (· == flEqual) hfl
    refine sameEffect_withReg fun ra => ?_
    rw [htest]
    split <;> exact ⟨.complete _ _ _ none none, rfl, rfl⟩

theorem takeDecodeFault_sameEffect (e : DecodeError) :
    SameEffect s (s.shownIn u) (.next (takeDecodeFault e s))
      (.next (takeDecodeFault e (s.shownIn u))) := by
  cases e <;> exact ⟨.fault _ _, rfl, rfl⟩

/-- A step of a running machine has the same effect in two states that agree on memory, registers
and `PC`, and on `FL` where it runs JEQ or JNE. -/
theorem stepWith_sameEffect {m : OpcodeMap} (hs : s.run = .running) (hu : u.run = .running)
    (hfl : u.fl = s.fl ∨ ∀ a rest, decodeWith m (fetchBytes s) ≠ .ok (.jeq a, rest) ∧
      decodeWith m (fetchBytes s) ≠ .ok (.jne a, rest)) :
    SameEffect s (s.shownIn u) (stepWith m s) (stepWith m (s.shownIn u)) := by
  have hfetch : fetchBytes (s.shownIn u) = fetchBytes s := fetchBytes_congr rfl rfl
  have hu : (s.shownIn u).run = .running := hu
  cases hdecode : decodeWith m (fetchBytes s) with
  | error e =>
    rw [stepWith_of_decode_error hs hdecode, stepWith_of_decode_error hu (hfetch ▸ hdecode)]
    exact takeDecodeFault_sameEffect s u e
  | ok p =>
    obtain ⟨i, rest⟩ := p
    rw [stepWith_of_decode_ok hs hdecode, stepWith_of_decode_ok hu (hfetch ▸ hdecode)]
    refine exec_sameEffect s u i (hfl.imp_right fun h a => ?_)
    obtain ⟨hjeq, hjne⟩ := h a rest
    exact ⟨fun hi => hjeq (hi ▸ hdecode), fun hi => hjne (hi ▸ hdecode)⟩

end

/-- The two next states of one effect. -/
theorem SameEffect.next_eq {s s' t t' : State} {r r' : Result} (h : SameEffect s s' r r')
    (ht : r = .next t) (ht' : r' = .next t') : ∃ e : Effect, t = e.apply s ∧ t' = e.apply s' := by
  obtain ⟨e, hr, hr'⟩ := h
  rw [ht] at hr
  rw [ht'] at hr'
  injection hr with hr
  injection hr' with hr'
  exact ⟨e, hr, hr'⟩

theorem eq_of_stepWith_of_not_running {m : OpcodeMap} {s t : State} (hrun : s.run ≠ .running)
    (h : stepWith m s = .next t) : t = s := by
  rw [stepWith_of_not_running m hrun] at h
  injection h with h
  exact h.symm

/-! ## What an effect looks at -/

namespace Effect

variable (e : Effect) {s s' : State}

theorem apply_sameVisible (h : SameVisible s s') : SameVisible (e.apply s) (e.apply s') := by
  obtain ⟨hmem, hregs, hpc, hfl, hrun⟩ := h
  have hnext (n : Nat) : s.nextPc n = s'.nextPc n := congrArg (· + BitVec.ofNat 9 (n + 1)) hpc
  cases e with
  | fault => exact ⟨hmem, hregs, hpc, hfl, rfl⟩
  | hlt | zeroDivisor => exact ⟨hmem, hregs, hnext _, hfl, rfl⟩
  | complete => exact ⟨rfl, rfl, rfl, congrArg (Option.getD _) hfl, hrun⟩

theorem apply_out (hpc : s.pc = s'.pc) :
    ∃ l, (e.apply s).out = s.out ++ l ∧ (e.apply s').out = s'.out ++ l := by
  cases e with
  | fault c info => exact ⟨[.diag c s.pc info], rfl, hpc ▸ rfl⟩
  | hlt => exact ⟨[], by simp [apply]⟩
  | zeroDivisor b => exact ⟨[.diag .divideByZero s.pc (zext9 b)], rfl, hpc ▸ rfl⟩
  | complete _ _ _ _ event => exact ⟨event.toList, by cases event <;> simp [apply]⟩

/-- An effect that stops the run records what does not depend on the record before. -/
theorem apply_record_of_stop (hpc : s.pc = s'.pc) (hstop : (e.apply s).run ≠ s.run) :
    (e.apply s).cause = (e.apply s').cause ∧ (e.apply s).causePc = (e.apply s').causePc ∧
      (e.apply s).causeInfo = (e.apply s').causeInfo := by
  cases e with
  | fault | hlt | zeroDivisor => exact ⟨rfl, hpc, rfl⟩
  | complete => exact absurd rfl hstop

/-- An effect after which the run goes on leaves the record. -/
theorem apply_record_of_running (hrun : (e.apply s).run = .running) (u : State) :
    (e.apply u).cause = u.cause ∧ (e.apply u).causePc = u.causePc ∧
      (e.apply u).causeInfo = u.causeInfo := by
  cases e with
  | fault | hlt | zeroDivisor => cases hrun
  | complete => exact ⟨rfl, rfl, rfl⟩

end Effect

end Sys2Proof.Machine

namespace Sys2Proof

open Machine

/-- Settles O20: a machine that is not running answers its own state, and a running one the state
after the effect of its step. -/
theorem stepAlwaysAnswersNext : Obligations.StepAlwaysAnswersNext := by
  intro m s
  by_cases hrun : s.run = .running
  · obtain ⟨e, hstep, -⟩ := stepWith_sameEffect s s (m := m) hrun hrun (.inl rfl)
    exact ⟨_, hstep⟩
  · exact ⟨s, stepWith_of_not_running m hrun⟩

/-- Settles O55: the two steps are one effect, which looks at `CAUSE*` and the trace only to append
to the trace. -/
theorem causeAndTraceAreNeverRead : Obligations.CauseAndTraceAreNeverRead := by
  intro m s s' t t' hvisible hstep hstep'
  have ⟨hmem, hregs, hpc, hfl, hrun⟩ := hvisible
  by_cases hrunning : s.run = .running
  case pos =>
    have hshown : s.shownIn s' = s' := by rw [State.shownIn, hmem, hregs, hpc]
    have hsame := stepWith_sameEffect s s' (m := m) hrunning (hrun ▸ hrunning) (.inl hfl.symm)
    rw [hshown] at hsame
    obtain ⟨e, rfl, rfl⟩ := hsame.next_eq hstep hstep'
    refine ⟨e.apply_sameVisible hvisible, e.apply_out hpc, e.apply_record_of_stop hpc,
      fun hsameRun => ?_⟩
    have hrecord := e.apply_record_of_running (hsameRun.trans hrunning)
    exact ⟨hrecord s, hrecord s'⟩
  case neg =>
    obtain rfl := eq_of_stepWith_of_not_running hrunning hstep
    obtain rfl := eq_of_stepWith_of_not_running (hrun ▸ hrunning) hstep'
    exact ⟨hvisible, ⟨[], by simp⟩, fun hstop => absurd rfl hstop,
      fun _ => ⟨⟨rfl, rfl, rfl⟩, rfl, rfl, rfl⟩⟩

/-- Settles O56: the two steps are one effect, which either writes `FL` or leaves it. -/
theorem onlyConditionalJumpsReadFlags : Obligations.OnlyConditionalJumpsReadFlags := by
  intro m s t t' fl hnotJump hstep hstep'
  by_cases hrunning : s.run = .running
  case pos =>
    have hsame := stepWith_sameEffect s { s with fl := fl } hrunning hrunning (.inr hnotJump)
    obtain ⟨e, rfl, rfl⟩ := hsame.next_eq hstep hstep'
    cases e with
    | fault | hlt | zeroDivisor =>
      exact ⟨rfl, rfl, rfl, rfl, rfl, rfl, rfl, rfl, .inr ⟨rfl, rfl⟩⟩
    | complete mem regs pc written event =>
      refine ⟨rfl, rfl, rfl, rfl, rfl, rfl, rfl, rfl, ?_⟩
      cases written with
      | none => exact .inr ⟨rfl, rfl⟩
      | some v => exact .inl rfl
  case neg =>
    have ht := eq_of_stepWith_of_not_running hrunning hstep
    have ht' := eq_of_stepWith_of_not_running (s := { s with fl := fl }) hrunning hstep'
    subst ht ht'
    exact ⟨rfl, rfl, rfl, rfl, rfl, rfl, rfl, rfl, .inr ⟨rfl, rfl⟩⟩

end Sys2Proof
end

section
/-! PROOFS. Whole-machine rules and frames: precise faults (O50), what writes `FL` (O52), memory
(O53) and the trace (O54), and what each instruction leaves unchanged (O57 to O60). -/

namespace Sys2Proof.Machine

/-! ## The step of a running machine, by its outcome -/

/-- The causes of a fault (R150). -/
def faultCauses : List Cause := [.unrecognizedOpcode, .outOfRangeAddress, .outOfRangeRegister]

theorem takeDecodeFault_eq_takeFault (e : DecodeError) (s : State) :
    ∃ c ∈ faultCauses, ∃ info, takeDecodeFault e s = takeFault c info s := by
  cases e with
  | noOpcode | missingOperand => exact ⟨.outOfRangeAddress, by simp [faultCauses], _, rfl⟩
  | unrecognizedOpcode => exact ⟨.unrecognizedOpcode, by simp [faultCauses], _, rfl⟩

/-- Everything a step of a running machine can answer: a fault, the two halts, or the completion of
the decoded instruction. -/
theorem stepWith_running_cases {m : OpcodeMap} {s t : State} (hrun : s.run = .running)
    (hstep : stepWith m s = .next t) :
    (∃ c ∈ faultCauses, ∃ info, t = takeFault c info s) ∨
    t = takeHalt .haltInstruction 0 0 s ∨ (∃ b, t = takeZeroDivisorHalt b 2 s) ∨
    ∃ i rest, decodeWith m (fetchBytes s) = .ok (i, rest) ∧ Completed i s t := by
  rcases stepWith_cases hstep with ⟨hstopped, _⟩ | ⟨_, e, _, rfl⟩ | ⟨_, i, rest, hi, hexec⟩
  · exact absurd hrun hstopped
  · exact .inl (takeDecodeFault_eq_takeFault e s)
  · rcases exec_cases hexec with ⟨b, _, _, ht⟩ | ⟨_, _, _, _, ht⟩ | ⟨_, ht⟩ |
      ⟨_, b, _, _, _, ht⟩ | hcompleted
    · exact .inl ⟨_, by simp [faultCauses], _, ht⟩
    · exact .inl ⟨_, by simp [faultCauses], _, ht⟩
    · exact .inr (.inl ht)
    · exact .inr (.inr (.inl ⟨b, ht⟩))
    · exact .inr (.inr (.inr ⟨i, rest, hi, hcompleted⟩))

/-- A step that changes the state completed an instruction, faulted or halted. -/
theorem running_of_stepWith_ne {m : OpcodeMap} {s t : State} (hstep : stepWith m s = .next t)
    (hne : t ≠ s) : s.run = .running := by
  by_contra hrun
  exact hne (eq_of_stepWith_of_not_running hrun hstep)

/-! ## What holds of every answer -/

/-- Whatever next state the answer is, `P` holds of it. -/
def Answers (P : State → Prop) (r : Result) : Prop := ∀ t, r = .next t → P t

section
variable {P : State → Prop} {s : State}

theorem answers_next (h : P s) : Answers P (.next s) :=
  fun _ ht => Host.Outcome.next.inj ht ▸ h

theorem answers_ite {p : Prop} [Decidable p] {r r' : Result} (h : Answers P r)
    (h' : Answers P r') : Answers P (if p then r else r') := by
  split
  · exact h
  · exact h'

/-- What holds after every fault and after the rest of the instruction holds after the check. -/
theorem answers_withReg {b : Byte} {go : Fin 8 → Result} (hfault : ∀ c i, P (takeFault c i s))
    (hgo : ∀ hb, Answers P (go ⟨b.toNat, hb⟩)) : Answers P (withReg b s go) := by
  intro t ht
  rcases withReg_cases ht with ⟨_, rfl⟩ | ⟨hb, ht⟩
  · exact hfault _ _
  · exact hgo hb t ht

theorem answers_withRegs {a b : Byte} {go : Fin 8 → Fin 8 → Result}
    (hfault : ∀ c i, P (takeFault c i s))
    (hgo : ∀ ha hb, Answers P (go ⟨a.toNat, ha⟩ ⟨b.toNat, hb⟩)) :
    Answers P (withRegs a b s go) :=
  answers_withReg hfault fun ha => answers_withReg hfault fun hb => hgo ha hb

end

/-! ## Frames of an instruction -/

/-- The registers an instruction may write: its destination, and `R[7]` for the stack. -/
def MayWrite (i : Instr) (r : Fin 8) : Prop :=
  match i with
  | .ldi a _ | .add a _ | .sub a _ | .mul a _ | .div a _ | .mod a _ | .and a _ | .or a _
  | .xor a _ | .not a | .shl a _ | .shr a _ => r.val = a.toNat
  | .pop a => r = 7 ∨ r.val = a.toNat
  | .push _ | .call _ | .ret => r = 7
  | .hlt | .prn _ | .cmp _ _ | .jmp _ | .jeq _ | .jne _ => False

section
variable (s : State) {r : Fin 8}

theorem State.reg_setReg_of_val_ne {n : Nat} (hn : n < 8) (v : Byte) (hr : r.val ≠ n) :
    (s.setReg ⟨n, hn⟩ v).reg r = s.reg r := by
  rw [State.reg_setReg, if_neg fun h => hr (congrArg Fin.val h)]

theorem State.reg_incSp_of_ne (hr : r ≠ 7) : s.incSp.reg r = s.reg r := by
  rw [State.reg_incSp, if_neg hr]

theorem State.reg_push_of_ne (f : State → Byte) (hr : r ≠ 7) : (s.push f).reg r = s.reg r := by
  rw [State.reg_push, if_neg hr]

theorem aluTwo_reg_of_ne (op : AluOp) {a : Byte} (b : Byte) (hr : r.val ≠ a.toNat) :
    Answers (fun t => t.reg r = s.reg r) (aluTwo op a b s) :=
  answers_withRegs (fun _ _ => rfl) fun ha _ => answers_next (s.reg_setReg_of_val_ne ha _ hr)

theorem aluDivide_reg_of_ne (op : AluOp) {a : Byte} (b : Byte) (hr : r.val ≠ a.toNat) :
    Answers (fun t => t.reg r = s.reg r) (aluDivide op a b s) :=
  answers_withRegs (fun _ _ => rfl) fun ha _ =>
    answers_ite (answers_next rfl) (answers_next (s.reg_setReg_of_val_ne ha _ hr))

/-- An instruction leaves every register that it may not write. -/
theorem exec_reg (i : Instr) (hr : ¬ MayWrite i r) :
    Answers (fun t => t.reg r = s.reg r) (exec i s) := by
  cases i with
  | hlt => exact answers_next rfl
  | ret => exact answers_next (s.reg_incSp_of_ne hr)
  | add a b | sub a b | mul a b | and a b | or a b | xor a b | shl a b | shr a b =>
    exact aluTwo_reg_of_ne s _ b hr
  | div a b | mod a b => exact aluDivide_reg_of_ne s _ b hr
  | cmp a b => exact answers_withRegs (fun _ _ => rfl) fun _ _ => answers_next rfl
  | ldi a _ | not a =>
    exact answers_withReg (fun _ _ => rfl) fun ha =>
      answers_next (s.reg_setReg_of_val_ne ha _ hr)
  | prn a | jmp a => exact answers_withReg (fun _ _ => rfl) fun _ => answers_next rfl
  | jeq a | jne a =>
    exact answers_withReg (fun _ _ => rfl) fun _ => answers_next (by split <;> rfl)
  | push a =>
    exact answers_withReg (fun _ _ => rfl) fun ha =>
      answers_next (s.reg_push_of_ne (fun t => t.reg ⟨a.toNat, ha⟩) hr)
  | call a =>
    exact answers_withReg (fun _ _ => rfl) fun _ =>
      answers_ite (answers_next rfl)
        (answers_next (s.reg_push_of_ne (fun _ => (s.nextPc 1).setWidth 8) hr))
  | pop a =>
    obtain ⟨hsp, ha⟩ := not_or.1 hr
    exact answers_withReg (fun _ _ => rfl) fun h =>
      answers_next ((State.reg_incSp_of_ne _ hsp).trans (s.reg_setReg_of_val_ne h _ ha))

end

section
variable {i : Instr} {s t : State}

/-- An instruction either completes, or ends the run with `FL`, memory and registers unchanged. -/
theorem exec_completed_or_stopped (h : exec i s = .next t) :
    Completed i s t ∨ t.run ≠ .running ∧ t.fl = s.fl ∧ t.mem = s.mem ∧ t.regs = s.regs := by
  rcases exec_cases h with ⟨_, _, _, rfl⟩ | ⟨_, _, _, _, rfl⟩ | ⟨_, rfl⟩ |
    ⟨_, _, _, _, _, rfl⟩ | hcompleted
  · exact .inr ⟨nofun, rfl, rfl, rfl⟩
  · exact .inr ⟨nofun, rfl, rfl, rfl⟩
  · exact .inr ⟨nofun, rfl, rfl, rfl⟩
  · exact .inr ⟨nofun, rfl, rfl, rfl⟩
  · exact .inl hcompleted

theorem completed_of_running (h : exec i s = .next t) (hrun : t.run = .running) :
    Completed i s t :=
  (exec_completed_or_stopped h).resolve_right fun ⟨hstopped, _⟩ => hstopped hrun

/-- Only CMP writes `FL`. -/
theorem exec_fl (h : exec i s = .next t) (hcmp : i.mnemonic ≠ .cmp) : t.fl = s.fl := by
  rcases exec_completed_or_stopped h with hcompleted | ⟨_, hfl, _, _⟩
  · exact hcompleted.fl.resolve_right fun ⟨_, _, _, _, hi, _⟩ => hcmp (hi ▸ rfl)
  · exact hfl

/-- Only PUSH and CALL write memory. -/
theorem exec_mem (h : exec i s = .next t) (hpush : i.mnemonic ≠ .push)
    (hcall : i.mnemonic ≠ .call) : t.mem = s.mem := by
  rcases exec_completed_or_stopped h with hcompleted | ⟨_, _, hmem, _⟩
  · refine hcompleted.mem.resolve_right ?_
    rintro ⟨_, _, rfl | rfl, _⟩
    · exact hpush rfl
    · exact hcall rfl
  · exact hmem

/-- Memory is written only where a push stores. -/
theorem exec_byteAt_of_ne (h : exec i s = .next t) {x : Nat} (hx : x ≠ pushAddr s) :
    t.byteAt x = s.byteAt x := by
  rw [State.byteAt_def, State.byteAt_def]
  rcases exec_completed_or_stopped h with hcompleted | ⟨_, _, hmem, _⟩
  · rcases hcompleted.mem with hmem | ⟨_, v, _, hmem⟩
    · rw [hmem]
    · rw [hmem, Memory.read_write, if_neg hx]
  · rw [hmem]

/-- Where the run goes on, `CAUSE*` are left, and the trace is but for PRN. -/
theorem exec_record_of_running (h : exec i s = .next t) (hrun : t.run = .running) :
    t.cause = s.cause ∧ t.causePc = s.causePc ∧ t.causeInfo = s.causeInfo ∧
      (i.mnemonic ≠ .prn → t.out = s.out) := by
  have hcompleted := completed_of_running h hrun
  exact ⟨hcompleted.cause, hcompleted.causePc, hcompleted.causeInfo, fun hprn =>
    hcompleted.out.resolve_right fun ⟨_, _, hi, _⟩ => hprn (hi ▸ rfl)⟩

end

end Sys2Proof.Machine

namespace Sys2Proof

open Machine

/-- Settles O50: of the outcomes of a step only a fault ends in Faulted. -/
theorem faultsArePrecise : Obligations.FaultsArePrecise := by
  intro m s t hrun hstep hfaulted
  rcases stepWith_running_cases hrun hstep with ⟨c, hc, info, rfl⟩ | rfl | ⟨b, rfl⟩ |
    ⟨_, _, _, hcompleted⟩
  · exact ⟨rfl, hc⟩
  · cases hfaulted
  · cases hfaulted
  · rw [hcompleted.run, hrun] at hfaulted
    cases hfaulted

/-- Settles O52: of the outcomes of a step only the completion of CMP changes `FL`. -/
theorem onlyCmpWritesFlags : Obligations.OnlyCmpWritesFlags := by
  intro m s t hstep hchanged
  have hrun := running_of_stepWith_ne hstep fun h => hchanged (h ▸ rfl)
  rcases stepWith_running_cases hrun hstep with ⟨_, _, _, rfl⟩ | rfl | ⟨_, rfl⟩ |
    ⟨i, rest, hi, hcompleted⟩
  · exact absurd rfl hchanged
  · exact absurd rfl hchanged
  · exact absurd rfl hchanged
  · obtain ⟨a, b, _, _, rfl, _⟩ := hcompleted.fl.resolve_left hchanged
    exact ⟨a, b, rest, hi⟩

/-- Settles O53: of the outcomes of a step only the completion of PUSH or CALL changes memory, by
one write at the address of a push. -/
theorem onlyPushAndCallWriteMemory : Obligations.OnlyPushAndCallWriteMemory := by
  intro m s t x hstep hchanged
  have hrun := running_of_stepWith_ne hstep fun h => hchanged (h ▸ rfl)
  rcases stepWith_running_cases hrun hstep with ⟨_, _, _, rfl⟩ | rfl | ⟨_, rfl⟩ |
    ⟨i, rest, hi, hcompleted⟩
  · exact absurd rfl hchanged
  · exact absurd rfl hchanged
  · exact absurd rfl hchanged
  · have hmem : t.mem ≠ s.mem := fun h => hchanged (congrArg (Memory.read · x) h)
    obtain ⟨a, v, hpush, hwrite⟩ := hcompleted.mem.resolve_left hmem
    constructor
    · by_contra hx
      exact hchanged (by rw [State.byteAt_def, hwrite, Memory.read_write, if_neg hx]; rfl)
    · refine ⟨a, rest, ?_⟩
      rcases hpush with rfl | rfl
      · exact .inl hi
      · exact .inr hi

/-- Settles O54: a fault and the zero divisor append the Diag they record, HLT and a completed
instruction nothing, but for PRN its Out. -/
theorem outputTraceGrowsByOneEvent : Obligations.OutputTraceGrowsByOneEvent := by
  intro m s t hrun hstep
  rcases stepWith_running_cases hrun hstep with ⟨c, hc, info, rfl⟩ | rfl | ⟨b, rfl⟩ |
    ⟨i, rest, hi, hcompleted⟩
  · have hcause : c ≠ .none ∧ c ≠ .haltInstruction := by
      revert hc; cases c <;> simp [faultCauses]
    exact .inr (.inr ⟨nofun, hcause.1, hcause.2, rfl⟩)
  · exact .inl rfl
  · exact .inr (.inr ⟨nofun, nofun, nofun, rfl⟩)
  · rcases hcompleted.out with hout | ⟨a, r, rfl, hout⟩
    · exact .inl hout
    · exact .inr (.inl ⟨s.reg r, a, rest, hi, hout, hcompleted.run.trans hrun⟩)

/-- Settles O57: the destination is the only register these may write, and none of them is CMP,
PUSH, CALL or PRN. -/
theorem frameOfLdiAndAlu : Obligations.FrameOfLdiAndAlu := by
  intro s t a b i hi
  have hwrites (r : Fin 8) (hr : r.val ≠ a.toNat) : ¬ MayWrite i r := by
    fin_cases hi <;> exact hr
  have hkind : ∀ o ∈ [Mnemonic.ldi, .add, .sub, .mul, .div, .mod, .and, .or, .xor, .not, .shl,
      .shr], o ≠ .cmp ∧ o ≠ .push ∧ o ≠ .call ∧ o ≠ .prn := by decide
  obtain ⟨hcmp, hpush, hcall, hprn⟩ := hkind i.mnemonic (List.mem_map_of_mem hi)
  intro _ h
  refine ⟨fun r hr => exec_reg s i (hwrites r hr) t h, exec_fl h hcmp,
    fun x => congrArg (Memory.read · x) (exec_mem h hpush hcall), fun hrunning => ?_⟩
  obtain ⟨hcause, hcausePc, hcauseInfo, hout⟩ := exec_record_of_running h hrunning
  exact ⟨hcause, hcausePc, hcauseInfo, hout hprn⟩

/-- Settles O58: these may write no register and no memory. -/
theorem frameOfHltPrnCmpAndJumps : Obligations.FrameOfHltPrnCmpAndJumps := by
  intro s t a b i hi
  have hwrites (r : Fin 8) : ¬ MayWrite i r := by
    fin_cases hi <;> exact not_false
  have hcmp : i ≠ .cmp a b → i.mnemonic ≠ .cmp := by
    revert i; simp [Instr.mnemonic]
  have hprn : i ≠ .prn a → i.mnemonic ≠ .prn := by
    revert i; simp [Instr.mnemonic]
  have hkind : ∀ o ∈ [Mnemonic.hlt, .prn, .cmp, .jmp, .jeq, .jne], o ≠ .push ∧ o ≠ .call := by
    decide
  obtain ⟨hpush, hcall⟩ := hkind i.mnemonic (List.mem_map_of_mem hi)
  intro _ h
  refine ⟨fun r => exec_reg s i (hwrites r) t h,
    fun x => congrArg (Memory.read · x) (exec_mem h hpush hcall), fun hi => exec_fl h (hcmp hi),
    fun hrunning => ?_⟩
  obtain ⟨hcause, hcausePc, hcauseInfo, hout⟩ := exec_record_of_running h hrunning
  exact ⟨hcause, hcausePc, hcauseInfo, fun hi => hout (hprn hi)⟩

/-- Settles O59: of the registers these may write `R[7]` only; and a running machine that they leave
not running has stopped, with memory and registers as they were. -/
theorem frameOfPushAndCall : Obligations.FrameOfPushAndCall := by
  intro s t a i hi
  have hwrites (r : Fin 8) (hr : r ≠ 7) : ¬ MayWrite i r := by
    rcases List.mem_pair.1 hi with rfl | rfl
    · exact hr
    · exact hr
  have hkind : ∀ o ∈ [Mnemonic.push, .call], o ≠ .cmp ∧ o ≠ .prn := by decide
  obtain ⟨hcmp, hprn⟩ := hkind i.mnemonic (List.mem_map_of_mem hi)
  intro hrun h
  refine ⟨fun r hr => exec_reg s i (hwrites r hr) t h, exec_fl h hcmp,
    fun x hx => exec_byteAt_of_ne h hx, fun hrunning => ?_, fun hstopped => ?_⟩
  · obtain ⟨hcause, hcausePc, hcauseInfo, hout⟩ := exec_record_of_running h hrunning
    exact ⟨hcause, hcausePc, hcauseInfo, hout hprn⟩
  · rcases exec_completed_or_stopped h with hcompleted | ⟨_, _, hmem, hregs⟩
    · exact absurd (hcompleted.run.trans hrun) hstopped
    · exact ⟨fun x => congrArg (Memory.read · x) hmem, congrArg (fun regs => regs[7]) hregs⟩

/-- Settles O60: these may write `R[7]` and POP its destination, and no memory. -/
theorem frameOfPopAndRet : Obligations.FrameOfPopAndRet := by
  intro s t a i hi
  have hwrites (r : Fin 8) (hsp : r ≠ 7) (hr : i = .pop a → r.val ≠ a.toNat) :
      ¬ MayWrite i r := by
    rcases List.mem_pair.1 hi with rfl | rfl
    · exact not_or.2 ⟨hsp, hr rfl⟩
    · exact hsp
  have hkind : ∀ o ∈ [Mnemonic.pop, .ret], o ≠ .cmp ∧ o ≠ .push ∧ o ≠ .call ∧ o ≠ .prn := by
    decide
  obtain ⟨hcmp, hpush, hcall, hprn⟩ := hkind i.mnemonic (List.mem_map_of_mem hi)
  intro _ h
  refine ⟨fun r hsp hr => exec_reg s i (hwrites r hsp hr) t h, exec_fl h hcmp,
    fun x => congrArg (Memory.read · x) (exec_mem h hpush hcall), fun hrunning => ?_⟩
  obtain ⟨hcause, hcausePc, hcauseInfo, hout⟩ := exec_record_of_running h hrunning
  exact ⟨hcause, hcausePc, hcauseInfo, hout hprn⟩

end Sys2Proof
end

section
/-! PROOFS. What each instruction answers with register operands (`41_system_data.md`, `42_alu.md`,
`43_stack.md`, `44_compare_control.md`), and with a register operand above 7 (O47). -/

namespace Sys2Proof.Machine

/-! ## The answer of an instruction whose operands name registers -/

section
variable {a b : Byte} (ha : a.toNat < 8) (hb : b.toNat < 8) (s : State)
include ha

theorem exec_ldi_of_lt (imm : Byte) :
    exec (.ldi a imm) s = .next ((s.setReg ⟨a.toNat, ha⟩ imm).advance 2) := withReg_of_lt ha _ _

theorem exec_prn_of_lt :
    exec (.prn a) s = .next ((s.emit (.out (s.reg ⟨a.toNat, ha⟩))).advance 1) :=
  withReg_of_lt ha _ _

theorem exec_not_of_lt :
    exec (.not a) s =
      .next ((s.setReg ⟨a.toNat, ha⟩ (alu .not (s.reg ⟨a.toNat, ha⟩) 0)).advance 1) :=
  withReg_of_lt ha _ _

theorem exec_push_of_lt :
    exec (.push a) s = .next ((s.push fun t => t.reg ⟨a.toNat, ha⟩).advance 1) :=
  withReg_of_lt ha _ _

theorem exec_pop_of_lt :
    exec (.pop a) s = .next ((s.setReg ⟨a.toNat, ha⟩ s.top).incSp.advance 1) :=
  withReg_of_lt ha _ _

theorem exec_jmp_of_lt : exec (.jmp a) s = .next (s.jumpTo (s.reg ⟨a.toNat, ha⟩)) :=
  withReg_of_lt ha _ _

theorem exec_jeq_of_lt :
    exec (.jeq a) s =
      .next (if s.lastEqual then s.jumpTo (s.reg ⟨a.toNat, ha⟩) else s.advance 1) :=
  withReg_of_lt ha _ _

theorem exec_jne_of_lt :
    exec (.jne a) s =
      .next (if s.lastEqual then s.advance 1 else s.jumpTo (s.reg ⟨a.toNat, ha⟩)) :=
  withReg_of_lt ha _ _

include hb in
theorem exec_cmp_of_lt :
    exec (.cmp a b) s =
      .next ((s.setFl (compareFlags (s.reg ⟨a.toNat, ha⟩) (s.reg ⟨b.toNat, hb⟩))).advance 2) :=
  withRegs_of_lt ha hb _ _

end

/-- The push of a CALL: the return address, as a byte (R131). -/
def State.pushReturn (s : State) : State := s.push fun _ => (s.nextPc 1).setWidth 8

/-- The state after a CALL that does not fault: the jump goes to the register as it is after the
decrement of `SP` (R131, decision D17). -/
def calledState (s : State) (r : Fin 8) : State := s.pushReturn.jumpTo (s.pushReturn.reg r)

theorem exec_call_of_lt {a : Byte} (ha : a.toNat < 8) {s : State} (hpc : s.pc.toNat < 254) :
    exec (.call a) s = .next (calledState s ⟨a.toNat, ha⟩) := by
  have hreturn : ¬ (s.nextPc 1).toNat > 255 := by rw [nextPc_toNat (by omega)]; omega
  exact (withReg_of_lt ha _ _).trans (if_neg hreturn)

/-- A first register operand above 7 faults, whatever the instruction (R154). -/
theorem exec_of_first_operand_ge {i : Instr} {a : Byte} {more : List Byte}
    (hi : i.registerOperands = a :: more) (ha : 7 < a.toNat) (s : State) :
    exec i s = .next (takeFault .outOfRangeRegister (zext9 a) s) := by
  cases i <;> cases hi <;> exact withReg_of_ge ha s _

/-- A second register operand above 7 faults after a first one that names a register. -/
theorem exec_of_second_operand_ge {i : Instr} {a b : Byte}
    (hi : i.registerOperands = [a, b]) (ha : a.toNat < 8) (hb : 7 < b.toNat) (s : State) :
    exec i s = .next (takeFault .outOfRangeRegister (zext9 b) s) := by
  cases i <;> cases hi <;> exact (withReg_of_lt ha s _).trans (withReg_of_ge hb s _)

/-! ## The values written -/

section
variable {a b : Byte} (ha : a.toNat < 8) (hb : b.toNat < 8) (s : State)

/-- A two-operand ALU instruction writes the ALU's result, advances by 3 and goes on. -/
theorem aluTwo_answer (op : AluOp) :
    ∃ t, aluTwo op a b s = .next t ∧
      t.reg ⟨a.toNat, ha⟩ = alu op (s.reg ⟨a.toNat, ha⟩) (s.reg ⟨b.toNat, hb⟩) ∧
      t.pc = s.pc + 3 ∧ t.run = s.run :=
  have h := aluTwo_of_lt op ha hb s
  ⟨_, h, reg_of_aluTwo ha hb h, rfl, rfl⟩

end

theorem alu_div_toNat (x y : Byte) : (alu .div x y).toNat = x.toNat / y.toNat := by
  have hmod : (alu .div x y).toNat = x.toNat / y.toNat % 256 := alu_toNat_of_exact rfl
  have hle : x.toNat / y.toNat ≤ x.toNat := Nat.div_le_self _ _
  rw [hmod, Nat.mod_eq_of_lt (hle.trans_lt x.isLt)]

theorem alu_mod_toNat (x y : Byte) : (alu .mod x y).toNat = x.toNat % y.toNat := by
  have hmod : (alu .mod x y).toNat = x.toNat % y.toNat % 256 := alu_toNat_of_exact rfl
  have hle : x.toNat % y.toNat ≤ x.toNat := Nat.mod_le _ _
  rw [hmod, Nat.mod_eq_of_lt (hle.trans_lt x.isLt)]

theorem alu_shl_toNat (x y : Byte) : (alu .shl x y).toNat = x.toNat * 2 ^ y.toNat % 256 :=
  alu_toNat_of_exact rfl

theorem alu_add (x y : Byte) : alu .add x y = x + y :=
  BitVec.eq_of_toNat_eq ((alu_toNat_of_exact rfl).trans (BitVec.toNat_add x y).symm)

theorem alu_mul (x y : Byte) : alu .mul x y = x * y :=
  BitVec.eq_of_toNat_eq ((alu_toNat_of_exact rfl).trans (BitVec.toNat_mul x y).symm)

theorem alu_sub (x y : Byte) : alu .sub x y = x - y := by
  have hexact := alu_toInt .sub x y
  apply BitVec.eq_of_toNat_eq
  rw [BitVec.toNat_sub]
  simp only [aluExact] at hexact
  omega

theorem alu_not (x y : Byte) : alu .not x y = ~~~x := by
  refine alu_eq_of_exact ?_
  have hlt := x.isLt
  simp only [aluExact, BitVec.toNat_not]
  omega

theorem alu_and (x y : Byte) : alu .and x y = x &&& y :=
  alu_eq_of_exact (by simp [aluExact])

theorem alu_or (x y : Byte) : alu .or x y = x ||| y :=
  alu_eq_of_exact (by simp [aluExact])

theorem alu_xor (x y : Byte) : alu .xor x y = x ^^^ y :=
  alu_eq_of_exact (by simp [aluExact])

theorem alu_div (x y : Byte) : alu .div x y = x / y :=
  BitVec.eq_of_toNat_eq ((alu_div_toNat x y).trans BitVec.toNat_udiv.symm)

theorem alu_mod (x y : Byte) : alu .mod x y = x % y :=
  BitVec.eq_of_toNat_eq ((alu_mod_toNat x y).trans BitVec.toNat_umod.symm)

theorem alu_shl (x y : Byte) : alu .shl x y = x <<< y.toNat := by
  apply BitVec.eq_of_toNat_eq
  rw [alu_shl_toNat, BitVec.toNat_shiftLeft, Nat.shiftLeft_eq]

theorem alu_shr (x y : Byte) : alu .shr x y = x >>> y.toNat := by
  apply BitVec.eq_of_toNat_eq
  rw [alu_shr_toNat, BitVec.toNat_ushiftRight, Nat.shiftRight_eq_div_pow]

end Sys2Proof.Machine

namespace Sys2Proof

open Machine

/-- Settles O32, one lemma for each of the eleven functions; DIV and MOD need no condition. -/
theorem aluEqualsByteArithmetic : Obligations.AluEqualsByteArithmetic :=
  fun x y => ⟨alu_add x y, alu_sub x y, alu_mul x y, fun _ => ⟨alu_div x y, alu_mod x y⟩,
    alu_and x y, alu_or x y, alu_xor x y, alu_not x y, alu_shl x y, alu_shr x y⟩

/-- Settles O27: each clause is the ALU's exact result modulo 256. -/
theorem addSubMulWriteResultModulo256 : Obligations.AddSubMulWriteResultModulo256 := by
  intro s a b ha hb
  have hwritten (op : AluOp) : ∃ t, aluTwo op a b s = .next t ∧
      ((t.reg ⟨a.toNat, ha⟩).toNat : Int) =
        aluExact op (s.reg ⟨a.toNat, ha⟩).toNat (s.reg ⟨b.toNat, hb⟩).toNat % 256 ∧
      t.pc = s.pc + 3 ∧ t.run = s.run := by
    obtain ⟨t, h, hreg, hrest⟩ := aluTwo_answer ha hb s op
    exact ⟨t, h, hreg ▸ alu_toInt op _ _, hrest⟩
  exact ⟨hwritten .add, hwritten .sub, hwritten .mul⟩

/-- Settles O28: with a divisor that is not zero DIV and MOD write the ALU's result. -/
theorem divModWriteQuotientAndRemainder : Obligations.DivModWriteQuotientAndRemainder := by
  intro s a b ha hb hz
  have hwritten (op : AluOp) : ∃ t, aluDivide op a b s = .next t ∧
      (t.reg ⟨a.toNat, ha⟩).toNat =
        (alu op (s.reg ⟨a.toNat, ha⟩) (s.reg ⟨b.toNat, hb⟩)).toNat ∧
      t.pc = s.pc + 3 ∧ t.run = s.run := by
    obtain ⟨t, h, hreg, hrest⟩ := aluTwo_answer ha hb s op
    exact ⟨t, (aluDivide_of_ne_zero ha hb hz).trans h, hreg ▸ rfl, hrest⟩
  exact ⟨alu_div_toNat _ _ ▸ hwritten .div, alu_mod_toNat _ _ ▸ hwritten .mod⟩

/-- Settles O30: the ALU's results are the word operations, which act bit by bit. -/
theorem bitwiseInstructionsActOnEachBit : Obligations.BitwiseInstructionsActOnEachBit := by
  intro s a b ha hb
  refine ⟨?_, ?_, ?_, ?_⟩
  · obtain ⟨t, h, hreg, hrest⟩ := aluTwo_answer ha hb s .and
    exact ⟨t, h, fun k _ => by rw [hreg, alu_and, BitVec.getLsbD_and], hrest⟩
  · obtain ⟨t, h, hreg, hrest⟩ := aluTwo_answer ha hb s .or
    exact ⟨t, h, fun k _ => by rw [hreg, alu_or, BitVec.getLsbD_or], hrest⟩
  · obtain ⟨t, h, hreg, hrest⟩ := aluTwo_answer ha hb s .xor
    exact ⟨t, h, fun k _ => by rw [hreg, alu_xor, BitVec.getLsbD_xor], hrest⟩
  · refine ⟨_, exec_not_of_lt ha s, fun k hk => ?_, rfl, rfl⟩
    simp [State.reg_setReg, alu_not, hk]

/-- Settles O31: an amount of 8 or more moves every bit out of the byte. -/
theorem shiftsByFullRegisterValue : Obligations.ShiftsByFullRegisterValue := by
  intro s a b ha hb
  constructor
  · obtain ⟨t, h, hreg, hrest⟩ := aluTwo_answer ha hb s .shl
    refine ⟨t, h, hreg ▸ alu_shl_toNat _ _, fun hlarge => ?_, hrest⟩
    rw [hreg, alu_shl, BitVec.shiftLeft_eq_zero hlarge]
  · obtain ⟨t, h, hreg, hrest⟩ := aluTwo_answer ha hb s .shr
    refine ⟨t, h, hreg ▸ alu_shr_toNat _ _, fun hlarge => ?_, hrest⟩
    rw [hreg, alu_shr, BitVec.ushiftRight_eq_zero hlarge]

/-- Settles O34: the second NOT negates the negation, and neither touches another register. -/
theorem notTwiceRestoresRegister : Obligations.NotTwiceRestoresRegister := by
  intro s t u a ha ht hu r
  rw [exec_not_of_lt ha] at ht hu
  injection ht with ht
  injection hu with hu
  subst ht hu
  by_cases hr : r = ⟨a.toNat, ha⟩ <;> simp [State.reg_setReg, alu_not, hr]

/-- Settles O47, from the list of register operands of each instruction. -/
theorem registerOperandAboveSevenFaults : Obligations.RegisterOperandAboveSevenFaults := by
  intro s a b
  refine ⟨fun ha i hi => ?_, fun ha hb i hi => ?_, fun ha => ⟨_, exec_ldi_of_lt ha s b, rfl⟩⟩
  · have hoperands : ∃ more, i.registerOperands = a :: more := by
      fin_cases hi <;> exact ⟨_, rfl⟩
    obtain ⟨more, hoperands⟩ := hoperands
    exact exec_of_first_operand_ge hoperands ha s
  · have hoperands : i.registerOperands = [a, b] := by fin_cases hi <;> rfl
    exact exec_of_second_operand_ge hoperands ha hb s

end Sys2Proof
end

section
/-! PROOFS. System, stack and control instructions (`41_system_data.md`, `43_stack.md`,
`44_compare_control.md`): O23 to O25, O35 to O37 and O39 to O46. -/

namespace Sys2Proof.Machine

section
variable (s : State)

theorem sp_sub_one_toNat : (s.sp - 1).toNat = (s.sp.toNat + 255) % 256 := pushAddr_eq s

theorem sp_add_one_toNat : (s.sp + 1).toNat = (s.sp.toNat + 1) % 256 := by
  rw [BitVec.toNat_add]; rfl

theorem State.sp_push (f : State → Byte) : (s.push f).sp = s.sp - 1 := s.reg_push f 7

theorem State.sp_incSp : s.incSp.sp = s.sp + 1 := s.reg_incSp 7

/-- The cell at the decremented `SP` after a push. -/
theorem State.byteAt_push_self (f : State → Byte) :
    (s.push f).byteAt (s.sp - 1).toNat = f (s.setSp (s.sp - 1)) := by
  rw [State.byteAt_push]
  exact if_pos rfl

theorem State.reg_setReg_self (r : Fin 8) (v : Byte) : (s.setReg r v).reg r = v := by
  rw [State.reg_setReg, if_pos rfl]

/-! ## CALL (R131) -/

theorem calledState_sp (r : Fin 8) : (calledState s r).sp = s.sp - 1 := by
  rw [calledState, State.sp_jumpTo, State.pushReturn, State.sp_push]

theorem calledState_pc (r : Fin 8) :
    (calledState s r).pc.toNat = ((calledState s r).reg r).toNat := zext9_toNat _

theorem calledState_reg_of_ne {r : Fin 8} (hr : r ≠ 7) : (calledState s r).reg r = s.reg r := by
  rw [calledState, State.reg_jumpTo, State.pushReturn, State.reg_push_of_ne _ _ hr]

/-- The return address is a byte where CALL does not fault. -/
theorem calledState_byteAt {s : State} (hpc : s.pc.toNat < 254) (r : Fin 8) :
    ((calledState s r).byteAt (s.sp - 1).toNat).toNat = s.pc.toNat + 2 := by
  rw [calledState, State.byteAt_jumpTo, State.pushReturn, State.byteAt_push_self,
    BitVec.toNat_setWidth, nextPc_toNat (by omega)]
  omega

theorem fin8_ne_seven {a : Byte} (ha : a.toNat < 8) (hne : a.toNat ≠ 7) :
    (⟨a.toNat, ha⟩ : Fin 8) ≠ 7 := fun h => hne (congrArg Fin.val h)

/-! ## CMP and the conditional jumps (R134, R136, R137) -/

theorem compareFlags_of_eq {x y : Byte} (h : x.toNat = y.toNat) : compareFlags x y = 0x01#8 :=
  if_pos (BitVec.eq_of_toNat_eq h)

theorem compareFlags_of_gt {x y : Byte} (h : y.toNat < x.toNat) : compareFlags x y = 0x02#8 := by
  have hne : x ≠ y := fun heq => absurd h (heq ▸ Nat.lt_irrefl _)
  rw [compareFlags, if_neg hne, if_pos h]
  rfl

theorem compareFlags_of_lt {x y : Byte} (h : x.toNat < y.toNat) : compareFlags x y = 0x04#8 := by
  have hne : x ≠ y := fun heq => absurd h (heq ▸ Nat.lt_irrefl _)
  rw [compareFlags, if_neg hne, if_neg (by omega)]
  rfl

theorem compareFlags_eq_equal_iff (x y : Byte) : compareFlags x y = flEqual ↔ x = y := by
  constructor
  · intro h
    by_contra hne
    rcases Nat.lt_or_gt_of_ne fun heq => hne (BitVec.eq_of_toNat_eq heq) with hlt | hgt
    · rw [compareFlags_of_lt hlt] at h; cases h
    · rw [compareFlags_of_gt hgt] at h; cases h
  · rintro rfl
    exact compareFlags_of_eq rfl

theorem State.lastEqual_iff : s.lastEqual = true ↔ s.fl = 0x01#8 := beq_iff_eq

end

end Sys2Proof.Machine

namespace Sys2Proof

open Machine

/-- Settles O23. -/
theorem hltHaltsPastItself : Obligations.HltHaltsPastItself := fun _ => rfl

/-- Settles O24. -/
theorem ldiWritesImmediate : Obligations.LdiWritesImmediate :=
  fun s _ v ha => ⟨_, exec_ldi_of_lt ha s v, s.reg_setReg_self _ v, rfl, rfl⟩

/-- Settles O25. -/
theorem prnEmitsRegisterValue : Obligations.PrnEmitsRegisterValue :=
  fun s _ ha => ⟨_, exec_prn_of_lt ha s, rfl, rfl, rfl⟩

/-- Settles O35: a register other than `R[7]` is read as it was before the decrement of `SP`. -/
theorem pushStoresBelowStackPointer : Obligations.PushStoresBelowStackPointer := by
  intro s a ha hne
  refine ⟨_, exec_push_of_lt ha s, ?_, ?_, rfl, rfl⟩
  · rw [State.sp_advance, State.sp_push, sp_sub_one_toNat]
  · rw [← sp_sub_one_toNat, State.byteAt_advance, State.byteAt_push_self, State.reg_setSp,
      if_neg (fin8_ne_seven ha hne)]

/-- Settles O36: the destination is not `R[7]`, so the increment of `SP` leaves it. -/
theorem popLoadsAtStackPointer : Obligations.PopLoadsAtStackPointer := by
  intro s a ha hne
  have hsp : (s.setReg ⟨a.toNat, ha⟩ s.top).sp = s.sp :=
    s.reg_setReg_of_val_ne ha _ (Ne.symm hne)
  refine ⟨_, exec_pop_of_lt ha s, ?_, ?_, rfl, rfl⟩
  · rw [State.reg_advance, State.reg_incSp_of_ne _ (fin8_ne_seven ha hne), State.reg_setReg_self]
    rfl
  · rw [State.sp_advance, State.sp_incSp, hsp, sp_add_one_toNat]

/-- Settles O37: PUSH and CALL read `R[7]` after the decrement, POP writes it before the
increment. -/
theorem stackPointerOperandSeesEarlierEffects :
    Obligations.StackPointerOperandSeesEarlierEffects := by
  intro s
  have h7 : (7 : Byte).toNat < 8 := by decide
  refine ⟨⟨_, exec_push_of_lt h7 s, ?_, ?_⟩, ⟨_, exec_pop_of_lt h7 s, ?_⟩,
    fun hpc => ⟨_, exec_call_of_lt h7 hpc, calledState_sp s _, ?_⟩⟩
  · rw [State.sp_advance, State.sp_push]
  · rw [State.byteAt_advance, State.byteAt_push_self]
    exact s.reg_setReg_self 7 _
  · rw [State.sp_advance, State.sp_incSp]
    exact congrArg (· + 1) (s.reg_setReg_self 7 _)
  · rw [calledState_pc]
    exact congrArg BitVec.toNat (calledState_sp s _)

/-- Settles O39. -/
theorem callPushesReturnAddressAndJumps : Obligations.CallPushesReturnAddressAndJumps := by
  intro s a ha hpc
  refine ⟨_, exec_call_of_lt ha hpc, ?_, ?_, fun hne => ?_, calledState_pc s _, rfl⟩
  · rw [calledState_sp, sp_sub_one_toNat]
  · rw [← sp_sub_one_toNat, calledState_byteAt hpc]
  · rw [calledState_pc, calledState_reg_of_ne s (fin8_ne_seven ha hne)]

/-- Settles O40: the return address of a CALL at 254 is 256. -/
theorem callWithoutByteReturnAddressFaults : Obligations.CallWithoutByteReturnAddressFaults := by
  intro s a hpc
  refine ⟨fun ha => ?_, fun ha => ⟨_, withReg_of_ge ha s _, rfl⟩⟩
  have hreturn : s.nextPc 1 = 256 := by rw [State.nextPc, hpc]; rfl
  have hbeyond : (s.nextPc 1).toNat > 255 := by rw [hreturn]; decide
  calc exec (.call a) s
      = raise .outOfRangeAddress (s.nextPc 1) s := (withReg_of_lt ha s _).trans (if_pos hbeyond)
    _ = raise .outOfRangeAddress 256 s := by rw [hreturn]

/-- Settles O41. -/
theorem retJumpsToPoppedAddress : Obligations.RetJumpsToPoppedAddress := by
  intro s
  refine ⟨_, rfl, zext9_toNat _, ?_, rfl⟩
  rw [State.sp_jumpTo, State.sp_incSp, sp_add_one_toNat]

/-- Settles O42: RET pops the return address the CALL pushed. -/
theorem callThenReturnResumesAfterOperand : Obligations.CallThenReturnResumesAfterOperand := by
  intro s t u a ha hpc hcall hsp hcell
  rw [exec_call_of_lt ha hpc] at hcall
  injection hcall with hcall
  subst hcall
  rw [calledState_sp] at hsp hcell
  have htop : u.top = (calledState s ⟨a.toNat, ha⟩).byteAt (s.sp - 1).toNat := by
    rw [State.top, popAddr, hsp, hcell]
  refine ⟨_, rfl, ?_, ?_⟩
  · rw [State.jumpTo_pc, zext9_toNat, htop, calledState_byteAt hpc]
  · rw [State.sp_jumpTo, State.sp_incSp, hsp, BitVec.sub_add_cancel]

/-- Settles O43: the three ways two unsigned numbers compare. -/
theorem cmpReplacesFlagsUnsigned : Obligations.CmpReplacesFlagsUnsigned := by
  intro s a b ha hb
  refine ⟨_, exec_cmp_of_lt ha hb s, fun heq => ?_, fun hgt => ?_, fun hlt => ?_, rfl, rfl⟩
  · simp [compareFlags_of_eq heq, State.flagE, State.flagG, State.flagL]
  · simp [compareFlags_of_gt hgt, State.flagE, State.flagG, State.flagL]
  · simp [compareFlags_of_lt hlt, State.flagE, State.flagG, State.flagL]

/-- Settles O44. -/
theorem jmpSetsProgramCounterOnly : Obligations.JmpSetsProgramCounterOnly :=
  fun s _ ha => exec_jmp_of_lt ha s

/-- Settles O45: the two branches of each jump. -/
theorem conditionalJumpsTestEqual : Obligations.ConditionalJumpsTestEqual := by
  intro s a ha
  rw [exec_jeq_of_lt ha, exec_jne_of_lt ha]
  simp only [State.lastEqual_iff]
  split
  · exact ⟨rfl, rfl⟩
  · exact ⟨rfl, rfl⟩

/-- Settles O46: the flag that CMP leaves is EQUAL exactly for equal values. -/
theorem compareThenJumpDecidesEquality : Obligations.CompareThenJumpDecidesEquality := by
  intro s t u a b d ha hb hd hcmp
  rw [exec_cmp_of_lt ha hb] at hcmp
  injection hcmp with hcmp
  have hfl : t.fl = 0x01#8 ↔ s.reg ⟨a.toNat, ha⟩ = s.reg ⟨b.toNat, hb⟩ := by
    rw [← hcmp]
    exact compareFlags_eq_equal_iff _ _
  have htarget : t.reg ⟨d.toNat, hd⟩ = s.reg ⟨d.toNat, hd⟩ := by rw [← hcmp]; rfl
  obtain ⟨hjeq, hjne⟩ := conditionalJumpsTestEqual t d hd
  simp only [hfl, htarget] at hjeq hjne
  constructor
  · intro hu
    rw [hjeq] at hu
    injection hu with hu
    exact hu ▸ rfl
  · intro hu
    rw [hjne] at hu
    injection hu with hu
    exact hu ▸ rfl

end Sys2Proof
end

section
/-! PROOFS. Steps over instructions that stand in memory: how each leaves `PC` (O22), LDI then PRN
(O26), PUSH then POP (O38). -/

namespace Sys2Proof.Machine

/-! ## Instructions in a row in memory -/

/-- The bytes `bytes` stand in memory from address `addr` on. -/
def BytesAt (s : State) (addr : Nat) (bytes : List Byte) : Prop :=
  ∀ k, (h : k < bytes.length) → s.byteAt (addr + k) = bytes[k]

section
variable {m : OpcodeMap} {s t u : State}

theorem BytesAt.left {addr : Nat} {bytes more : List Byte} (h : BytesAt s addr (bytes ++ more)) :
    BytesAt s addr bytes := by
  intro k hk
  rw [h k (by simp; omega), List.getElem_append_left hk]

theorem BytesAt.right {addr : Nat} {bytes more : List Byte}
    (h : BytesAt s addr (bytes ++ more)) : BytesAt s (addr + bytes.length) more := by
  intro k hk
  have hcell := h (bytes.length + k) (by simp; omega)
  rw [List.getElem_append_right (by omega)] at hcell
  simpa [Nat.add_assoc] using hcell

/-- Bytes that read the same in another state stand there too. -/
theorem BytesAt.congr {addr : Nat} {bytes : List Byte} (h : BytesAt s addr bytes)
    (hsame : ∀ k < bytes.length, t.byteAt (addr + k) = s.byteAt (addr + k)) :
    BytesAt t addr bytes :=
  fun k hk => (hsame k hk).trans (h k hk)

/-- An instruction of `n` operand bytes stands at `PC` where its bytes stand there and lie inside
the memory. -/
theorem BytesAt.instructionAtPc {i : Instr} {addr n : Nat} (h : BytesAt s addr (encodeWith m i))
    (hpc : s.pc.toNat = addr) (hn : i.mnemonic.operandCount = n) (hinside : addr + n < 256) :
    InstructionAtPc m s i := by
  subst hpc hn
  refine ⟨?_, h⟩
  rw [encodeWith_length]
  exact hinside

theorem InstructionAtPc.inside {i : Instr} (h : InstructionAtPc m s i) :
    s.pc.toNat + i.mnemonic.operandCount < 256 := by
  have hinside := h.1
  rw [encodeWith_length] at hinside
  exact hinside

/-- Two instructions that complete, one after the other, are two steps. -/
theorem stepsTo_two {i j : Instr} (hm : m.Admissible) (hs : s.run = .running)
    (hi : InstructionAtPc m s i) (hst : exec i s = .next t) (ht : t.run = .running)
    (hj : InstructionAtPc m t j) (htu : exec j t = .next u) : StepsTo m 2 s u :=
  .succ ((stepWith_of_instructionAtPc hm hs hi).trans hst)
    (.succ ((stepWith_of_instructionAtPc hm ht hj).trans htu) (.zero u))

/-- Past an instruction inside the memory the 9-bit sum is the number (R76). -/
theorem nextPc_toNat_of_inside {n : Nat} (h : s.pc.toNat + n < 256) :
    (s.nextPc n).toNat = s.pc.toNat + (n + 1) := nextPc_toNat (by omega)

/-! ## `PC` after an instruction (R16) -/

/-- A fault of an instruction leaves `PC`. -/
theorem exec_pc_of_faulted {i : Instr} (hrun : s.run = .running) (h : exec i s = .next t)
    (hfaulted : t.run = .faulted) : t.pc = s.pc := by
  rcases exec_cases h with ⟨_, _, _, rfl⟩ | ⟨_, _, _, _, rfl⟩ | ⟨_, rfl⟩ |
    ⟨_, _, _, _, _, rfl⟩ | hcompleted
  · rfl
  · rfl
  · cases hfaulted
  · cases hfaulted
  · rw [hcompleted.run, hrun] at hfaulted
    cases hfaulted

/-- An instruction that does not control `PC` is advanced past unless it faults, also by a halt. -/
theorem exec_pc_of_not_controlsPc {i : Instr} (hi : i.mnemonic.controlsPc = false)
    (h : exec i s = .next t) (hsafe : t.run ≠ .faulted) :
    t.pc = s.nextPc i.mnemonic.operandCount := by
  rcases exec_cases h with ⟨_, _, _, rfl⟩ | ⟨_, _, _, _, rfl⟩ | ⟨rfl, rfl⟩ |
    ⟨_, _, _, hdivide, _, rfl⟩ | hcompleted
  · exact absurd rfl hsafe
  · exact absurd rfl hsafe
  · rfl
  · rcases hdivide with rfl | rfl <;> rfl
  · exact hcompleted.pc.resolve_right fun ⟨hcontrols, _⟩ => by simp [hi] at hcontrols

/-- CALL that does not fault goes to its register as it is afterwards. -/
theorem exec_call_pc {a : Byte} (ha : a.toNat < 8) (s : State) :
    Answers (fun t => t.run ≠ .faulted → t.pc = zext9 (t.reg ⟨a.toNat, ha⟩))
      (exec (.call a) s) :=
  answers_withReg (fun _ _ hsafe => absurd rfl hsafe) fun _ =>
    answers_ite (answers_next fun hsafe => absurd rfl hsafe) (answers_next fun _ => rfl)

end

end Sys2Proof.Machine

namespace Sys2Proof

open Machine

/-- Settles O22: an instruction that does not control `PC` is advanced past, each transfer sets it
as its answer says, and with `PC` above 255 nothing can be fetched. -/
theorem programCounterAfterEachInstruction : Obligations.ProgramCounterAfterEachInstruction := by
  intro m s t i hm hrun hi hstep
  have hexec : exec i s = .next t := (stepWith_of_instructionAtPc hm hrun hi).symm.trans hstep
  have hinside := hi.inside
  refine ⟨exec_pc_of_faulted hrun hexec, fun hsafe => ?_⟩
  have hpast {n : Nat} (hkind : i.mnemonic.controlsPc = false ∧ i.mnemonic.operandCount = n) :
      t.pc.toNat = s.pc.toNat + (n + 1) := by
    obtain ⟨hcontrols, rfl⟩ := hkind
    rw [exec_pc_of_not_controlsPc hcontrols hexec hsafe, nextPc_toNat_of_inside hinside]
  refine ⟨fun hi => hpast (hi ▸ ⟨rfl, rfl⟩), fun a hi => hpast ?_, fun a b hi => hpast ?_,
    fun a ha hi => ?_, fun a ha hi => ?_, fun a ha hi => ?_, fun a ha hi => ?_, fun hi => ?_,
    fun hpc hrunning => ⟨_, stepWith_of_pc_ge m hrunning hpc, rfl⟩⟩
  · have hkind : ∀ o ∈ [Mnemonic.prn, .not, .push, .pop],
        o.controlsPc = false ∧ o.operandCount = 1 := by decide
    exact hkind i.mnemonic (List.mem_map_of_mem hi)
  · have hkind : ∀ o ∈ [Mnemonic.ldi, .add, .sub, .mul, .div, .mod, .and, .or, .xor, .shl, .shr,
        .cmp], o.controlsPc = false ∧ o.operandCount = 2 := by decide
    exact hkind i.mnemonic (List.mem_map_of_mem hi)
  · subst hi
    rw [exec_jmp_of_lt ha] at hexec
    injection hexec with ht
    rw [← ht, State.jumpTo_pc, zext9_toNat]
  · subst hi
    rw [exec_jeq_of_lt ha] at hexec
    injection hexec with ht
    simp only [← ht, State.lastEqual_iff]
    split
    · exact zext9_toNat _
    · exact nextPc_toNat_of_inside hinside
  · subst hi
    rw [exec_jne_of_lt ha] at hexec
    injection hexec with ht
    simp only [← ht, State.lastEqual_iff, ite_not, ne_eq]
    split
    · exact nextPc_toNat_of_inside hinside
    · exact zext9_toNat _
  · subst hi
    rw [exec_call_pc ha s t hexec hsafe, zext9_toNat]
  · subst hi
    injection hexec with ht
    rw [← ht, State.jumpTo_pc, zext9_toNat]
    rfl

/-- Settles O26, from what LDI and PRN answer and the frame of LDI, which leaves the bytes of PRN
and the trace. -/
theorem ldiThenPrnEmitsTheValue : Obligations.LdiThenPrnEmitsTheValue := by
  intro m s a v hm ha hrun hinside hbytes
  have hprogram : BytesAt s s.pc.toNat (encodeWith m (.ldi a v) ++ encodeWith m (.prn a)) := hbytes
  have hldi := hprogram.left.instructionAtPc rfl rfl (n := 2) (by omega)
  obtain ⟨t, hst, hreg, htpc, htrun⟩ := ldiWritesImmediate s a v ha
  have ht := htrun.trans hrun
  obtain ⟨-, -, hmem, hrecord⟩ :=
    frameOfLdiAndAlu s t a v (.ldi a v) List.mem_cons_self hrun hst
  obtain ⟨-, -, -, hout⟩ := hrecord ht
  have htpc : t.pc.toNat = s.pc.toNat + 3 :=
    (congrArg BitVec.toNat htpc).trans (nextPc_toNat_of_inside (n := 2) (by omega))
  have hprn := (hprogram.right.congr (t := t) fun _ _ => hmem _).instructionAtPc htpc rfl (n := 1)
    (show s.pc.toNat + 3 + 1 < 256 by omega)
  obtain ⟨u, htu, huout, hupc, hurun⟩ := prnEmitsRegisterValue t a ha
  refine ⟨u, stepsTo_two hm hrun hldi hst ht hprn htu, ?_, hurun.trans ht, ?_⟩
  · rw [huout, hout, hreg]
  · have hupc : u.pc.toNat = t.pc.toNat + 2 :=
      (congrArg BitVec.toNat hupc).trans (nextPc_toNat_of_inside (n := 1) (by omega))
    rw [hupc, htpc]

/-- Settles O38, from what PUSH and POP answer and the frame of PUSH, which leaves the bytes of POP;
the two changes of `SP` cancel modulo 256. -/
theorem pushThenPopMovesValueAndRestoresStack :
    Obligations.PushThenPopMovesValueAndRestoresStack := by
  intro m s a b ha hb hm hrun hinside hbytes hclear hclear'
  have hprogram : BytesAt s s.pc.toNat (encodeWith m (.push a) ++ encodeWith m (.pop b)) := hbytes
  have hpush := hprogram.left.instructionAtPc rfl rfl (n := 1) (by omega)
  obtain ⟨t, hst, htsp, hcell, htpc, htrun⟩ :=
    pushStoresBelowStackPointer s a (by omega) (by omega)
  have ht := htrun.trans hrun
  obtain ⟨-, -, hmem, -⟩ := frameOfPushAndCall s t a (.push a) List.mem_cons_self hrun hst
  have htpc : t.pc.toNat = s.pc.toNat + 2 :=
    (congrArg BitVec.toNat htpc).trans (nextPc_toNat_of_inside (n := 1) (by omega))
  have hrest : BytesAt t (s.pc.toNat + 2) (encodeWith m (.pop b)) := by
    refine hprogram.right.congr fun k hk => hmem _ ?_
    have hk : k < 2 := hk
    show s.pc.toNat + 2 + k ≠ pushAddr s
    omega
  have hpop := hrest.instructionAtPc htpc rfl (n := 1) (by omega)
  obtain ⟨u, htu, hreg, husp, hupc, hurun⟩ := popLoadsAtStackPointer t b (by omega) (by omega)
  refine ⟨u, stepsTo_two hm hrun hpush hst ht hpop htu, ?_, ?_, hurun.trans ht, ?_⟩
  · rw [hreg, htsp, hcell]
  · have hlt := s.sp.isLt
    exact BitVec.eq_of_toNat_eq (by omega)
  · have hupc : u.pc.toNat = t.pc.toNat + 2 :=
      (congrArg BitVec.toNat hupc).trans (nextPc_toNat_of_inside (n := 1) (by omega))
    rw [hupc, htpc]

end Sys2Proof
end
